-- ==== Sys2Proof/Word.lean ====
section
/-! DEFINITION. The word types of the CHIP-8 core. Every value is unsigned (R8); bits are numbered from 0 at the
least significant bit (R7). -/

namespace Sys2Proof

/-- A register, immediate, timer or memory byte: 8 bits (R5, R20, R29, R30, R50). -/
abbrev Byte := BitVec 8

/-- I, PC, a stack slot or an opcode: 16 bits (R5, R23, R26, R28, R70). -/
abbrev Word := BitVec 16

/-- A 12-bit data address or the `nnn` immediate (R5, R52, R71). -/
abbrev Addr := BitVec 12

/-- The index of a general register V0 to VF, or of a key 0x0 to 0xF (R20, R32). -/
abbrev Nibble := Fin 16

end Sys2Proof
end

