-- ==== Sys2Proof/Syntax.lean ====
section
/-! DEFINITION. The 34 instructions of the opcode map (R75), one constructor per row of spec/opcode_table.json, in
the map's order. `x` and `y` are register indexes, `kk` a byte, `nnn` an address, `n` a row count (R71). -/

namespace Sys2Proof

inductive Instr where
  /-- `00E0` CLS (R102) -/
  | cls
  /-- `00EE` RET (R120) -/
  | ret
  /-- `1nnn` JP nnn (R122) -/
  | jp (nnn : Addr)
  /-- `2nnn` CALL nnn (R124) -/
  | call (nnn : Addr)
  /-- `3xkk` SE Vx, kk (R127) -/
  | seImm (x : Nibble) (kk : Byte)
  /-- `4xkk` SNE Vx, kk (R129) -/
  | sneImm (x : Nibble) (kk : Byte)
  /-- `5xy0` SE Vx, Vy (R131) -/
  | seReg (x y : Nibble)
  /-- `6xkk` LD Vx, kk (R150) -/
  | ldImm (x : Nibble) (kk : Byte)
  /-- `7xkk` ADD Vx, kk (R152) -/
  | addImm (x : Nibble) (kk : Byte)
  /-- `8xy0` LD Vx, Vy (R154) -/
  | ldReg (x y : Nibble)
  /-- `8xy1` OR Vx, Vy (R156) -/
  | or (x y : Nibble)
  /-- `8xy2` AND Vx, Vy (R158) -/
  | and (x y : Nibble)
  /-- `8xy3` XOR Vx, Vy (R160) -/
  | xor (x y : Nibble)
  /-- `8xy4` ADD Vx, Vy (R162) -/
  | addReg (x y : Nibble)
  /-- `8xy5` SUB Vx, Vy (R164) -/
  | sub (x y : Nibble)
  /-- `8xy6` SHR Vx: any `y`, ignored (R77, R166) -/
  | shr (x y : Nibble)
  /-- `8xy7` SUBN Vx, Vy (R168) -/
  | subn (x y : Nibble)
  /-- `8xyE` SHL Vx: any `y`, ignored (R77, R170) -/
  | shl (x y : Nibble)
  /-- `9xy0` SNE Vx, Vy (R133) -/
  | sneReg (x y : Nibble)
  /-- `Annn` LD I, nnn (R192) -/
  | ldI (nnn : Addr)
  /-- `Bnnn` JP V0, nnn (R136) -/
  | jpV0 (nnn : Addr)
  /-- `Cxkk` RND Vx, kk (R172) -/
  | rnd (x : Nibble) (kk : Byte)
  /-- `Dxyn` DRW Vx, Vy, n (R104); `n` is a count, 0 to 15 in every encoding -/
  | drw (x y : Nibble) (n : Nat)
  /-- `Ex9E` SKP Vx (R221) -/
  | skp (x : Nibble)
  /-- `ExA1` SKNP Vx (R222) -/
  | sknp (x : Nibble)
  /-- `Fx07` LD Vx, DT (R224) -/
  | ldVxDt (x : Nibble)
  /-- `Fx0A` LD Vx, K (R226) -/
  | ldVxKey (x : Nibble)
  /-- `Fx15` LD DT, Vx (R228) -/
  | ldDtVx (x : Nibble)
  /-- `Fx18` LD ST, Vx (R230) -/
  | ldStVx (x : Nibble)
  /-- `Fx1E` ADD I, Vx (R194) -/
  | addI (x : Nibble)
  /-- `Fx29` LD F, Vx (R196) -/
  | ldGlyph (x : Nibble)
  /-- `Fx33` LD B, Vx (R198) -/
  | ldBcd (x : Nibble)
  /-- `Fx55` LD [I], Vx (R200) -/
  | storeRegs (x : Nibble)
  /-- `Fx65` LD Vx, [I] (R202) -/
  | loadRegs (x : Nibble)
deriving DecidableEq, Repr

end Sys2Proof
end

