-- ==== Sys2Proof/WellFormed.lean ====
section
/-! DEFINITION. Which instruction terms have an encoding. Register indexes, `kk` and `nnn` fit their fields by type
(R71); the row count of `Dxyn` is a number, and its field holds 0 to 15 (R71, R73). -/

namespace Sys2Proof

/-- The instruction has an encoding: the row count of `Dxyn` fits its 4-bit field (R71, R73). -/
def Instr.wellFormed : Instr → Bool
  | .drw _ _ n => decide (n < 16)
  | .cls | .ret | .jp _ | .call _ | .seImm _ _ | .sneImm _ _ | .seReg _ _ | .ldImm _ _ | .addImm _ _
  | .ldReg _ _ | .or _ _ | .and _ _ | .xor _ _ | .addReg _ _ | .sub _ _ | .shr _ _ | .subn _ _ | .shl _ _
  | .sneReg _ _ | .ldI _ | .jpV0 _ | .rnd _ _ | .skp _ | .sknp _ | .ldVxDt _ | .ldVxKey _ | .ldDtVx _
  | .ldStVx _ | .addI _ | .ldGlyph _ | .ldBcd _ | .storeRegs _ | .loadRegs _ => true

end Sys2Proof
end

