-- ==== Sys2Proof/Decode.lean ====
section
/-! DEFINITION. From words to instructions (R70 to R82) and back. Decoding is by field matching on the leading nibble
and the secondary selector (R74); every word is an instruction or illegal (R79, R80, R81). -/

namespace Sys2Proof

/-- op4 = op[15:12], the leading nibble (R72). -/
def fieldOp4 (op : Word) : BitVec 4 := op.extractLsb' 12 4

/-- x = op[11:8] (R72). -/
def fieldX (op : Word) : Nibble := (op.extractLsb' 8 4).toFin

/-- y = op[7:4] (R72). -/
def fieldY (op : Word) : Nibble := (op.extractLsb' 4 4).toFin

/-- n = op[3:0] as bits: the selector of families 5, 8 and 9, the row count of `Dxyn` (R72, R74). -/
def fieldN (op : Word) : BitVec 4 := op.extractLsb' 0 4

/-- kk = op[7:0] (R72). -/
def fieldKK (op : Word) : Byte := op.extractLsb' 0 8

/-- nnn = op[11:0] (R72). -/
def fieldNNN (op : Word) : Addr := op.extractLsb' 0 12

/-- Family 0 decodes on all twelve low bits (R76). -/
def decodeFamily0 (op : Word) : Option Instr :=
  match fieldNNN op with
  | 0x0E0#12 => some .cls
  | 0x0EE#12 => some .ret
  | _ => none

/-- Family 5 decodes on `n`: only n = 0 (R77). -/
def decodeFamily5 (op : Word) : Option Instr :=
  match fieldN op with
  | 0x0#4 => some (.seReg (fieldX op) (fieldY op))
  | _ => none

/-- Family 8 decodes on `n`: 0 to 7 and E (R77). -/
def decodeFamily8 (op : Word) : Option Instr :=
  match fieldN op with
  | 0x0#4 => some (.ldReg (fieldX op) (fieldY op))
  | 0x1#4 => some (.or (fieldX op) (fieldY op))
  | 0x2#4 => some (.and (fieldX op) (fieldY op))
  | 0x3#4 => some (.xor (fieldX op) (fieldY op))
  | 0x4#4 => some (.addReg (fieldX op) (fieldY op))
  | 0x5#4 => some (.sub (fieldX op) (fieldY op))
  | 0x6#4 => some (.shr (fieldX op) (fieldY op))
  | 0x7#4 => some (.subn (fieldX op) (fieldY op))
  | 0xE#4 => some (.shl (fieldX op) (fieldY op))
  | _ => none

/-- Family 9 decodes on `n`: only n = 0 (R77). -/
def decodeFamily9 (op : Word) : Option Instr :=
  match fieldN op with
  | 0x0#4 => some (.sneReg (fieldX op) (fieldY op))
  | _ => none

/-- Family E decodes on `kk` (R78). -/
def decodeFamilyE (op : Word) : Option Instr :=
  match fieldKK op with
  | 0x9E#8 => some (.skp (fieldX op))
  | 0xA1#8 => some (.sknp (fieldX op))
  | _ => none

/-- Family F decodes on `kk` (R78). -/
def decodeFamilyF (op : Word) : Option Instr :=
  match fieldKK op with
  | 0x07#8 => some (.ldVxDt (fieldX op))
  | 0x0A#8 => some (.ldVxKey (fieldX op))
  | 0x15#8 => some (.ldDtVx (fieldX op))
  | 0x18#8 => some (.ldStVx (fieldX op))
  | 0x1E#8 => some (.addI (fieldX op))
  | 0x29#8 => some (.ldGlyph (fieldX op))
  | 0x33#8 => some (.ldBcd (fieldX op))
  | 0x55#8 => some (.storeRegs (fieldX op))
  | 0x65#8 => some (.loadRegs (fieldX op))
  | _ => none

/-- The instruction a word stands for, or `none` where the word is illegal (R74, R75, R80). -/
def decode (op : Word) : Option Instr :=
  match fieldOp4 op with
  | 0x0#4 => decodeFamily0 op
  | 0x1#4 => some (.jp (fieldNNN op))
  | 0x2#4 => some (.call (fieldNNN op))
  | 0x3#4 => some (.seImm (fieldX op) (fieldKK op))
  | 0x4#4 => some (.sneImm (fieldX op) (fieldKK op))
  | 0x5#4 => decodeFamily5 op
  | 0x6#4 => some (.ldImm (fieldX op) (fieldKK op))
  | 0x7#4 => some (.addImm (fieldX op) (fieldKK op))
  | 0x8#4 => decodeFamily8 op
  | 0x9#4 => decodeFamily9 op
  | 0xA#4 => some (.ldI (fieldNNN op))
  | 0xB#4 => some (.jpV0 (fieldNNN op))
  | 0xC#4 => some (.rnd (fieldX op) (fieldKK op))
  | 0xD#4 => some (.drw (fieldX op) (fieldY op) (fieldN op).toNat)
  | 0xE#4 => decodeFamilyE op
  | _ => decodeFamilyF op

/-- Why a byte sequence gives no instruction. -/
inductive DecodeReject where
  /-- fewer than the two bytes of an instruction (R70) -/
  | tooShort
  /-- the word matches no row of the opcode map (R80) -/
  | illegalWord (op : Word)
deriving DecidableEq, Repr

/-- Two bytes as a word, the first one high: instruction fetch is big-endian (R54, R70). -/
def wordOfBytes (hi lo : Byte) : Word := hi ++ lo

/-- The high byte of a word, stored at the lower address (R54). -/
def highByte (op : Word) : Byte := op.extractLsb' 8 8

/-- The low byte of a word, stored at the higher address (R54). -/
def lowByte (op : Word) : Byte := op.extractLsb' 0 8

/-- Decoding of a byte sequence: the instruction its first two bytes hold, with the bytes after it (R70, R82). -/
def decodeBytes : List Byte → Except DecodeReject (Instr × List Byte)
  | hi :: lo :: rest =>
    match decode (wordOfBytes hi lo) with
    | some i => .ok (i, rest)
    | none => .error (.illegalWord (wordOfBytes hi lo))
  | _ => .error .tooShort

/-- Word of the layout `op4 nnn` (R71). -/
def packNNN (op4 : BitVec 4) (nnn : Addr) : Word := op4 ++ nnn

/-- Word of the layout `op4 x kk` (R71). -/
def packXKK (op4 : BitVec 4) (x : Nibble) (kk : Byte) : Word := packNNN op4 (BitVec.ofFin (w := 4) x ++ kk)

/-- Word of the layout `op4 x y n` (R71). -/
def packXYN (op4 : BitVec 4) (x y : Nibble) (n : BitVec 4) : Word :=
  packXKK op4 x (BitVec.ofFin (w := 4) y ++ n)

/-- The word of an instruction, from the patterns of the opcode map (R75). -/
def encode : Instr → Word
  | .cls => packNNN 0x0#4 0x0E0#12
  | .ret => packNNN 0x0#4 0x0EE#12
  | .jp nnn => packNNN 0x1#4 nnn
  | .call nnn => packNNN 0x2#4 nnn
  | .seImm x kk => packXKK 0x3#4 x kk
  | .sneImm x kk => packXKK 0x4#4 x kk
  | .seReg x y => packXYN 0x5#4 x y 0x0#4
  | .ldImm x kk => packXKK 0x6#4 x kk
  | .addImm x kk => packXKK 0x7#4 x kk
  | .ldReg x y => packXYN 0x8#4 x y 0x0#4
  | .or x y => packXYN 0x8#4 x y 0x1#4
  | .and x y => packXYN 0x8#4 x y 0x2#4
  | .xor x y => packXYN 0x8#4 x y 0x3#4
  | .addReg x y => packXYN 0x8#4 x y 0x4#4
  | .sub x y => packXYN 0x8#4 x y 0x5#4
  | .shr x y => packXYN 0x8#4 x y 0x6#4
  | .subn x y => packXYN 0x8#4 x y 0x7#4
  | .shl x y => packXYN 0x8#4 x y 0xE#4
  | .sneReg x y => packXYN 0x9#4 x y 0x0#4
  | .ldI nnn => packNNN 0xA#4 nnn
  | .jpV0 nnn => packNNN 0xB#4 nnn
  | .rnd x kk => packXKK 0xC#4 x kk
  | .drw x y n => packXYN 0xD#4 x y (BitVec.ofNat 4 n)
  | .skp x => packXKK 0xE#4 x 0x9E#8
  | .sknp x => packXKK 0xE#4 x 0xA1#8
  | .ldVxDt x => packXKK 0xF#4 x 0x07#8
  | .ldVxKey x => packXKK 0xF#4 x 0x0A#8
  | .ldDtVx x => packXKK 0xF#4 x 0x15#8
  | .ldStVx x => packXKK 0xF#4 x 0x18#8
  | .addI x => packXKK 0xF#4 x 0x1E#8
  | .ldGlyph x => packXKK 0xF#4 x 0x29#8
  | .ldBcd x => packXKK 0xF#4 x 0x33#8
  | .storeRegs x => packXKK 0xF#4 x 0x55#8
  | .loadRegs x => packXKK 0xF#4 x 0x65#8

/-- One row of the opcode map: a word `op` is of the row when `op AND mask = pattern` (R75). The fields are a pair
so that the map stays a plain list. -/
abbrev OpcodeRow := Word × Word

/-- `op AND mask = match` (R75). -/
def OpcodeRow.matches (row : OpcodeRow) (op : Word) : Bool := op &&& row.2 == row.1

/-- The match and mask columns of the opcode map, row by row (R75). -/
def opcodeMap : List OpcodeRow :=
  [(0x00E0, 0xFFFF), (0x00EE, 0xFFFF), (0x1000, 0xF000), (0x2000, 0xF000), (0x3000, 0xF000), (0x4000, 0xF000)] ++
  [(0x5000, 0xF00F), (0x6000, 0xF000), (0x7000, 0xF000), (0x8000, 0xF00F), (0x8001, 0xF00F), (0x8002, 0xF00F)] ++
  [(0x8003, 0xF00F), (0x8004, 0xF00F), (0x8005, 0xF00F), (0x8006, 0xF00F), (0x8007, 0xF00F), (0x800E, 0xF00F)] ++
  [(0x9000, 0xF00F), (0xA000, 0xF000), (0xB000, 0xF000), (0xC000, 0xF000), (0xD000, 0xF000), (0xE09E, 0xF0FF)] ++
  [(0xE0A1, 0xF0FF), (0xF007, 0xF0FF), (0xF00A, 0xF0FF), (0xF015, 0xF0FF), (0xF018, 0xF0FF), (0xF01E, 0xF0FF)] ++
  [(0xF029, 0xF0FF), (0xF033, 0xF0FF), (0xF055, 0xF0FF), (0xF065, 0xF0FF)]

/-- The 16-bit word of a table row's bits: the low `nbits` bits of `w`, every bit above them 0. -/
def tableWord (nbits w : Nat) : Word := BitVec.ofNat 16 (w % 2 ^ nbits)

/-- The instruction the decoder reads from a table row's bits, laid out as the hardware stores them: high byte at the
lower address (R54). -/
def decodeTableWord (nbits w : Nat) : Option Instr :=
  match decodeBytes [highByte (tableWord nbits w), lowByte (tableWord nbits w)] with
  | .ok (i, _) => some i
  | .error _ => none

end Sys2Proof
end

