-- ==== Sys2Proof/Config.lean ====
section
/-! DEFINITION. The core's fixed sizes (R5), its named parameters (R6), and the free value behind the random input
(R87, R274). -/

namespace Sys2Proof.Config

/-- MEM_SIZE of R5. -/
def memSize : Nat := 4096

/-- PROG_BASE of R5: where images are loaded and where PC starts. -/
def progBase : Nat := 0x200

/-- MAX_IMAGE of R5: 4096 − 512 bytes. -/
def maxImage : Nat := 3584

/-- GLYPH_BYTES of R5: bytes of one hexadecimal digit's glyph. -/
def glyphBytes : Nat := 5

/-- GLYPH_TABLE of R6 at its default, the bytes listed in R33, digit 0 first.
PRESUMED (log 2, unsafe): the spec takes these bytes from general knowledge (D19). -/
def glyphTable : List Byte :=
  [0xF0, 0x90, 0x90, 0x90, 0xF0] ++ [0x20, 0x60, 0x20, 0x20, 0x70] ++
  [0xF0, 0x10, 0xF0, 0x80, 0xF0] ++ [0xF0, 0x10, 0xF0, 0x10, 0xF0] ++
  [0x90, 0x90, 0xF0, 0x10, 0x10] ++ [0xF0, 0x80, 0xF0, 0x10, 0xF0] ++
  [0xF0, 0x80, 0xF0, 0x90, 0xF0] ++ [0xF0, 0x10, 0x20, 0x40, 0x40] ++
  [0xF0, 0x90, 0xF0, 0x90, 0xF0] ++ [0xF0, 0x90, 0xF0, 0x10, 0xF0] ++
  [0xF0, 0x90, 0xF0, 0x90, 0x90] ++ [0xE0, 0x90, 0xE0, 0x90, 0xE0] ++
  [0xF0, 0x80, 0x80, 0x80, 0xF0] ++ [0xE0, 0x90, 0x90, 0x90, 0xE0] ++
  [0xF0, 0x80, 0xF0, 0x80, 0xF0] ++ [0xF0, 0x80, 0xF0, 0x80, 0x80]

/-- HOST_SKIP_ON_FAULT of R6 and R255: whether the host may clear a latched fault by `Skip()`.
It has no body, so that a claim holds for either choice (log 3, safe); the spec's default is false. -/
opaque hostSkipOnFault : Bool

/-- STEPS_PER_TICK of R6: the reference host's cadence, read by no rule of the core (R262). -/
def stepsPerTick : Nat := 8

/-- TICK_HZ of R6: the reference host's rate, read by no rule of the core (R262). -/
def tickHz : Nat := 60

/-- The `k`-th random byte the host supplies without naming it: the spec admits every value at every step
(R87, R274, D26), so it has no body (log 6, safe). -/
opaque freeRnd : Nat → Byte

end Sys2Proof.Config
end

