-- ==== Sys2Proof/Machine/State.lean ====
section
/-! DEFINITION. The state of the core (10_state.md), why a step can stop, and the state after reset (R39). -/

namespace Sys2Proof.Machine

/-- The fault kinds a step can latch (R37, R250). -/
inductive FaultKind where
  /-- PC ≥ 0x0FFF at fetch (R88) -/
  | outOfBoundsFetch
  /-- the fetched word matches no row of the opcode map (R80) -/
  | illegalInstruction
  /-- `2nnn` with SP = 16 (R124) -/
  | stackOverflow
  /-- `00EE` with SP = 0 (R120) -/
  | stackUnderflow
deriving DecidableEq, Repr

/-- The record FAULT holds (R37): the kind, the PC of the failed step, and the fetched word where there is one. -/
structure FaultRecord where
  kind : FaultKind
  pc : Word
  opcode : Option Word
deriving DecidableEq, Repr

/-- The two edge-triggered audio signals (R266). -/
inductive ToneEvent where
  | start
  | stop
deriving DecidableEq, Repr

/-- What the RND latch holds: a byte the host supplied, or the `k`-th byte it supplied without naming it
(R87, R274; log 6). -/
inductive RndInput where
  | supplied (b : Byte)
  | free (k : Nat)
deriving DecidableEq, Repr

/-- The operations of the block, with their arguments (R11, R260). -/
inductive HostOp where
  /-- `Step(KEYS, RND)` (R86) -/
  | step (keys : Word) (rnd : Byte)
  /-- `Tick()` (R263) -/
  | tick
  /-- `Skip()` (R255) -/
  | skip
  /-- `Reset(image)` (R290) -/
  | reset (image : List Byte)
deriving DecidableEq, Repr

/-- The 64×32 grid of one-bit pixels: row py (0 at the top), then column px (0 at the left); true is on
(R31). -/
abbrev Framebuffer := Vector (Vector Bool 64) 32

/-- Memory as the bytes that differ from its reset contents, by rising address (R50, R39; log 1). -/
abbrev Memory := List Host.Cell

/-- Everything the spec gives the machine, and the model's own schedule of host operations. -/
structure State where
  /-- V0 to VF (R20) -/
  v : Vector Byte 16
  /-- I (R28) -/
  i : Word
  /-- PC (R23) -/
  pc : Word
  /-- SP, the number of saved frames, 0 to 16 (R27) -/
  sp : Fin 17
  /-- STACK[0] to STACK[15] (R26) -/
  stack : Vector Word 16
  /-- DT (R29) -/
  dt : Byte
  /-- ST (R30) -/
  st : Byte
  /-- FB (R31) -/
  fb : Framebuffer
  /-- memory (R50) -/
  mem : Memory
  /-- FAULT (R37) -/
  fault : Option FaultRecord
  /-- the KEYS input latch, bit k = key k pressed (R32, R90) -/
  keys : Word
  /-- the RND input latch (R87, R90) -/
  rnd : RndInput
  /-- the tone events emitted since the last reset, newest first (R266; log 7) -/
  events : List ToneEvent
  /-- the model's own: the operations the host performs next, oldest first (R262; log 4) -/
  schedule : List HostOp
  /-- the model's own: how many unnamed random bytes were drawn (log 6) -/
  freeCount : Nat
deriving DecidableEq, Repr

/-- Where the machine stops. The four fault kinds of a step are no stop: they are latched in FAULT, a next state
(R252; log 8). -/
inductive Fault where
  /-- Raised by `Reset(image)` alone, for an image of more than 3584 bytes: no machine state is created, so there is
  nothing to step (R294). Safe: the spec's own stop. -/
  | imageTooLarge (length : Nat)
deriving DecidableEq, Repr

/-- What the model gives no meaning. -/
inductive Refusal where
  /-- Raised by an arm of `exec` whose instruction has no meaning yet: none is left. Safe. -/
  | notModelled (mnemonic : String)
  /-- Raised by `Skip()` where the spec does not offer it: HOST_SKIP_ON_FAULT false, or FAULT None (R255; log 9).
  Safe: the spec gives that call no effect. -/
  | skipNotOffered
deriving DecidableEq, Repr

/-- All pixels off (R39). -/
def Framebuffer.blank : Framebuffer := Vector.replicate 32 (Vector.replicate 64 false)

/-- The state after `Reset` of an empty image (R39, R290, R291). The RND latch, the schedule and the free count are
the model's choice (log 4, log 5, log 6). -/
def State.reset : State where
  v := Vector.replicate 16 0#8
  i := 0#16
  pc := 0x200#16
  sp := 0
  stack := Vector.replicate 16 0#16
  dt := 0#8
  st := 0#8
  fb := Framebuffer.blank
  mem := []
  fault := none
  keys := 0#16
  rnd := .supplied 0#8
  events := []
  schedule := []
  freeCount := 0

end Sys2Proof.Machine
end

