-- ==== Sys2Proof/Machine/Ops.lean ====
section
/-! DEFINITION. The named operations over memory, the program counter, the call stack, the timers and FAULT that the
instructions and the host's operations share. -/

namespace Sys2Proof.Machine

/-! ### Memory (20_memory.md) -/

/-- What an address that memory does not list holds: its reset contents, GLYPH_TABLE at 0x000 to 0x04F and zero
elsewhere (R39, R58). -/
def Memory.background (a : Nat) : Byte := Config.glyphTable.getD a 0#8

/-- `MemRead(a, 1)` (R9, R57). -/
def Memory.read : Memory → Nat → Byte
  | [], a => Memory.background a
  | (k, b) :: m, a => if k = a then b else Memory.read m a

/-- Put a cell before the first one with a greater address. -/
def Memory.insertCell (a : Nat) (b : Byte) : Memory → Memory
  | [] => [(a, b)]
  | (k, c) :: m => if a < k then (a, b) :: (k, c) :: m else (k, c) :: Memory.insertCell a b m

/-- `MemWrite(a, 1, b)` (R9, R57): the canonical form is kept by listing no byte that equals the reset contents
(log 1). -/
def Memory.write (m : Memory) (a : Nat) (b : Byte) : Memory :=
  if b = Memory.background a then m.filter (fun c => c.1 ≠ a)
  else Memory.insertCell a b (m.filter (fun c => c.1 ≠ a))

/-- Addresses strictly rise from one bound on. -/
def Memory.risingFrom : Nat → Memory → Bool
  | _, [] => true
  | lo, (k, _) :: m => decide (lo ≤ k) && Memory.risingFrom (k + 1) m

/-- The canonical form: addresses strictly rising and below 4096, no entry equal to the reset contents. -/
def Memory.wf (m : Memory) : Bool :=
  Memory.risingFrom 0 m && m.all (fun c => decide (c.1 < Config.memSize) && decide (c.2 ≠ Memory.background c.1))

/-- `EA(k) = (I + k) mod 4096` (R52). -/
def ea (i : Word) (k : Nat) : Addr := BitVec.ofNat 12 (i.toNat + k)

/-- Read the byte at EA(k) (R53). -/
def Memory.readEA (m : Memory) (i : Word) (k : Nat) : Byte := m.read (ea i k).toNat

/-- Store bytes at EA(k), EA(k + 1), …, in that order (R56, R64). -/
def Memory.storeEA (i : Word) : Nat → List Byte → Memory → Memory
  | _, [], m => m
  | k, b :: bs, m => Memory.storeEA i (k + 1) bs (m.write (ea i k).toNat b)

/-- Copy an image to an address on, byte by byte (R291). -/
def Memory.copyImage : Nat → List Byte → Memory → Memory
  | _, [], m => m
  | a, b :: bs, m => Memory.copyImage (a + 1) bs (m.write a b)

/-! ### Framebuffer write port (R100) -/

/-- FB[py][px] (R31). -/
def Framebuffer.pixel (fb : Framebuffer) (px : Fin 64) (py : Fin 32) : Bool := (fb.get py).get px

/-- Toggle one pixel to its complement (R100). -/
def Framebuffer.toggle (fb : Framebuffer) (px : Fin 64) (py : Fin 32) : Framebuffer :=
  fb.set py ((fb.get py).set px (!fb.pixel px py))

/-! ### Program counter (R23, R89, R126) -/

/-- The default next PC: `(PC + 2) mod 65536` (R89). -/
def State.advance (s : State) : State := { s with pc := s.pc + 2#16 }

/-- A skip whose condition holds sets `(PC + 4) mod 65536`, else the default (R126). -/
def State.skipIf (c : Bool) (s : State) : State := { s with pc := if c then s.pc + 4#16 else s.pc + 2#16 }

/-- Control goes to a target; no +2 is added (R23). -/
def State.jump (target : Word) (s : State) : State := { s with pc := target }

/-! ### Call stack (R26, R27) -/

/-- Push a return address; `none` when SP = 16 (R27). -/
def State.push (value : Word) (s : State) : Option State :=
  if h : s.sp.val < 16 then
    some { s with stack := s.stack.set s.sp.val value, sp := ⟨s.sp.val + 1, by omega⟩ }
  else none

/-- Pop a return address, leaving its slot as it is; `none` when SP = 0 (R27). -/
def State.pop (s : State) : Option (Word × State) :=
  if h : s.sp.val = 0 then none
  else some (s.stack[s.sp.val - 1]'(by omega), { s with sp := ⟨s.sp.val - 1, by omega⟩ })

/-! ### Timers and tone events (R263, R264, R266) -/

/-- The events of an operation that takes ST from `before` to `after` (R266). -/
def toneEdge (before after : Byte) : List ToneEvent :=
  if before = 0#8 ∧ after ≠ 0#8 then [.start]
  else if before ≠ 0#8 ∧ after = 0#8 then [.stop]
  else []

/-- Set ST and emit the tone event of the change, if any (R230, R266). -/
def State.setSt (b : Byte) (s : State) : State := { s with st := b, events := toneEdge s.st b ++ s.events }

/-- Decremented by 1 while above 0, never below 0 (R264). -/
def countDown (t : Byte) : Byte := if t = 0#8 then t else t - 1#8

/-- `Tick()` (R263): it runs regardless of FAULT (R265). -/
def State.tick (s : State) : State := State.setSt (countDown s.st) { s with dt := countDown s.dt }

/-! ### Faults (R250 to R255): the core's one exception mechanism -/

/-- Raising a fault: the step commits nothing but FAULT, whose record holds the kind, the PC of the step and the
fetched word (R90, R252). PC stays at the faulting instruction (R253); there is no vector and no mode (R259). -/
def State.raise (kind : FaultKind) (opcode : Option Word) (s : State) : State :=
  { s with fault := some { kind := kind, pc := s.pc, opcode := opcode } }

/-- The return from a fault, `Skip()` where it is allowed: FAULT is cleared and PC passes the instruction (R255). -/
def State.skipFault (s : State) : State := { s with fault := none, pc := s.pc + 2#16 }

/-- The numeric code of a latched fault kind (R250). -/
def FaultKind.code : FaultKind → Nat
  | .outOfBoundsFetch => 1
  | .illegalInstruction => 2
  | .stackOverflow => 3
  | .stackUnderflow => 4

/-- The numeric code of `Reset`'s failure (R250, R294). -/
def Fault.code : Fault → Nat
  | .imageTooLarge _ => 5

/-! ### Fetch (R88) -/

/-- Whether PC and PC + 1 are both in memory (R88). -/
def fetchable (pc : Word) : Bool := decide (pc.toNat ≤ 0xFFE)

/-- The word at an address, high byte first (R54, R88). -/
def Memory.wordAt (m : Memory) (a : Nat) : Word := wordOfBytes (m.read a) (m.read (a + 1))

/-- The opcode at PC; `none` when PC or PC + 1 is outside memory (R88). -/
def State.fetch (s : State) : Option Word := if fetchable s.pc then some (s.mem.wordAt s.pc.toNat) else none

end Sys2Proof.Machine
end

