-- ==== Sys2Proof/Machine/Operands.lean ====
section
/-! DEFINITION. The operand forms of the instructions: general registers, immediates, the key and the digit a register
names, the random input, and the register block of `Fx55` and `Fx65`. -/

namespace Sys2Proof.Machine

/-- `V[x]` (R9, R20). -/
def State.readV (s : State) (x : Nibble) : Byte := s.v.get x

/-- `V[x] <- b` (R9, R20). -/
def State.writeV (x : Nibble) (b : Byte) (s : State) : State := { s with v := s.v.set x b }

/-- VF in its role as the flag register (R21). -/
def vf : Nibble := 15

/-- The result to Vx, then the flag to VF: the flag is the write that remains when x = 0xF (R91). -/
def State.writeVFlag (x : Nibble) (result flag : Byte) (s : State) : State := (s.writeV x result).writeV vf flag

/-- `I <- w` (R28). -/
def State.setI (w : Word) (s : State) : State := { s with i := w }

/-- `DT <- b` (R29). -/
def State.setDt (b : Byte) (s : State) : State := { s with dt := b }

/-- An address immediate, zero-extended to 16 bits (R73). -/
def zextAddr (nnn : Addr) : Word := nnn.setWidth 16

/-- A byte, zero-extended to 16 bits (R8). -/
def zextByte (b : Byte) : Word := b.setWidth 16

/-- The low nibble of a byte: the key (R220) or the digit (R196) a register names. -/
def lowNibble (b : Byte) : Nibble := (b.extractLsb' 0 4).toFin

/-- KEYS[k] (R32): true when key k is pressed. -/
def keyPressed (keys : Word) (k : Nibble) : Bool := keys.getLsbD k

/-- The lowest pressed key (R226); `none` when KEYS = 0. -/
def lowestKey (keys : Word) : Option Nibble := (List.finRange 16).find? (keyPressed keys)

/-- The index of a key as a register value (R226). -/
def keyByte (k : Nibble) : Byte := BitVec.ofNat 8 k

/-- The address of a digit's glyph, `5 · d` (R33, R196). -/
def glyphAddress (d : Nibble) : Word := BitVec.ofNat 16 (d * Config.glyphBytes)

/-- RND, the random byte of the current step (R87): the byte supplied, or the free value it names (log 6). -/
def RndInput.value : RndInput → Byte
  | .supplied b => b
  | .free k => Config.freeRnd k

/-- The three decimal digits of a byte, hundreds first (R198). -/
def decimalDigits (a : Byte) : List Byte :=
  [BitVec.ofNat 8 (a.toNat / 100), BitVec.ofNat 8 (a.toNat / 10 % 10), BitVec.ofNat 8 (a.toNat % 10)]

/-- V0 to Vx inclusive (R200). -/
def State.regBlock (x : Nibble) (s : State) : List Byte := s.v.toList.take (x + 1)

/-- V0 to Vx inclusive from the bytes at EA(0) to EA(x), the other registers unchanged (R202). -/
def State.loadBlock (x : Nibble) (s : State) : State :=
  { s with v := Vector.ofFn fun j => if j ≤ x then s.mem.readEA s.i j else s.v.get j }

end Sys2Proof.Machine
end

