-- ==== Sys2Proof/Machine/Flags.lean ====
section
/-! DEFINITION. The flag computations, each from the operands as they were before the step (R34, R35). -/

namespace Sys2Proof.Machine

/-- A flag as VF holds it: 1 or 0 (R35). -/
def flagByte (c : Bool) : Byte := if c then 1#8 else 0#8

/-- `8xy4`: 1 when the untruncated sum exceeds 255 (R162). -/
def carryFlag (a b : Byte) : Byte := flagByte (decide (a.toNat + b.toNat > 255))

/-- `8xy5` with (Vx, Vy), `8xy7` with (Vy, Vx): 1 when the minuend is strictly greater (R164, R168). -/
def greaterFlag (a b : Byte) : Byte := flagByte (decide (a.toNat > b.toNat))

/-- `8xy6`: the least significant bit before the shift (R166). -/
def lsbFlag (a : Byte) : Byte := flagByte (a.getLsbD 0)

/-- `8xyE`: the most significant bit before the shift (R170). -/
def msbFlag (a : Byte) : Byte := flagByte (a.getLsbD 7)

/-- `Dxyn`: 1 when a toggle turned a pixel from on to off (R108). -/
def collisionFlag (c : Bool) : Byte := flagByte c

end Sys2Proof.Machine
end

