-- ==== Sys2Proof/Machine/Alu.lean ====
section
/-! DEFINITION. The register and ALU family (42_alu.md): `6xkk`, `7xkk`, `8xy0` to `8xy7`, `8xyE`, `Cxkk`. Operands
are read before any write and the flag is written last (R91). -/

namespace Sys2Proof.Machine

/-- Write a result to Vx and go on; no flag (R89). -/
def finishV (x : Nibble) (result : Byte) (s : State) : Host.Outcome State Fault Refusal :=
  .next (s.writeV x result).advance

/-- Write a result to Vx, then the flag to VF, and go on (R89, R91). -/
def finishVFlag (x : Nibble) (result flag : Byte) (s : State) : Host.Outcome State Fault Refusal :=
  .next (s.writeVFlag x result flag).advance

/-- `6xkk` LD Vx, kk (R150). -/
def execLdImm (x : Nibble) (kk : Byte) (s : State) : Host.Outcome State Fault Refusal := finishV x kk s

/-- `7xkk` ADD Vx, kk: wraps, no flag (R152). -/
def execAddImm (x : Nibble) (kk : Byte) (s : State) : Host.Outcome State Fault Refusal :=
  finishV x (s.readV x + kk) s

/-- `8xy0` LD Vx, Vy (R154). -/
def execLdReg (x y : Nibble) (s : State) : Host.Outcome State Fault Refusal := finishV x (s.readV y) s

/-- `8xy1` OR Vx, Vy (R156). -/
def execOr (x y : Nibble) (s : State) : Host.Outcome State Fault Refusal := finishV x (s.readV x ||| s.readV y) s

/-- `8xy2` AND Vx, Vy (R158). -/
def execAnd (x y : Nibble) (s : State) : Host.Outcome State Fault Refusal := finishV x (s.readV x &&& s.readV y) s

/-- `8xy3` XOR Vx, Vy (R160). -/
def execXor (x y : Nibble) (s : State) : Host.Outcome State Fault Refusal := finishV x (s.readV x ^^^ s.readV y) s

/-- `8xy4` ADD Vx, Vy (R162). -/
def execAddReg (x y : Nibble) (s : State) : Host.Outcome State Fault Refusal :=
  finishVFlag x (s.readV x + s.readV y) (carryFlag (s.readV x) (s.readV y)) s

/-- `8xy5` SUB Vx, Vy (R164). -/
def execSub (x y : Nibble) (s : State) : Host.Outcome State Fault Refusal :=
  finishVFlag x (s.readV x - s.readV y) (greaterFlag (s.readV x) (s.readV y)) s

/-- `8xy6` SHR Vx: a logical shift of Vx; y is ignored (R166). -/
def execShr (x _y : Nibble) (s : State) : Host.Outcome State Fault Refusal :=
  finishVFlag x (s.readV x >>> 1) (lsbFlag (s.readV x)) s

/-- `8xy7` SUBN Vx, Vy (R168). -/
def execSubn (x y : Nibble) (s : State) : Host.Outcome State Fault Refusal :=
  finishVFlag x (s.readV y - s.readV x) (greaterFlag (s.readV y) (s.readV x)) s

/-- `8xyE` SHL Vx: y is ignored (R170). -/
def execShl (x _y : Nibble) (s : State) : Host.Outcome State Fault Refusal :=
  finishVFlag x (s.readV x <<< 1) (msbFlag (s.readV x)) s

/-- `Cxkk` RND Vx, kk (R172). -/
def execRnd (x : Nibble) (kk : Byte) (s : State) : Host.Outcome State Fault Refusal :=
  finishV x (s.rnd.value &&& kk) s

end Sys2Proof.Machine
end

