-- ==== Sys2Proof/Machine/Display.lean ====
section
/-! DEFINITION. The display family (40_display.md): `00E0` and `Dxyn`. -/

namespace Sys2Proof.Machine

/-- `00E0` CLS (R102). -/
def execCls (s : State) : Host.Outcome State Fault Refusal :=
  .next { s with fb := Framebuffer.blank }.advance

/-- One set sprite bit of column `c` and row `r`: toggle the pixel it lands on, wrapping, and record a collision where
that pixel was on (R104, R106, R108). The pair is the grid and the collision so far. -/
def drawBit (cx cy r c : Nat) (d : Framebuffer × Bool) : Framebuffer × Bool :=
  (d.1.toggle (Fin.ofNat 64 (cx + c)) (Fin.ofNat 32 (cy + r)),
   d.2 || d.1.pixel (Fin.ofNat 64 (cx + c)) (Fin.ofNat 32 (cy + r)))

/-- The eight columns of one sprite row, its most significant bit leftmost (R104). -/
def drawRow (cx cy r : Nat) (b : Byte) (d : Framebuffer × Bool) : Framebuffer × Bool :=
  (List.range 8).foldl (fun d c => if b.getLsbD (7 - c) then drawBit cx cy r c d else d) d

/-- The rows of a sprite in order, each with its row number from `r` on (R104). -/
def drawRows (cx cy : Nat) : Nat → List Byte → Framebuffer × Bool → Framebuffer × Bool
  | _, [], d => d
  | r, b :: bs, d => drawRows cx cy (r + 1) bs (drawRow cx cy r b d)

/-- The `n` sprite bytes at EA(0) to EA(n − 1) (R53, R104). -/
def spriteBytes (m : Memory) (i : Word) (n : Nat) : List Byte := (List.range n).map (m.readEA i)

/-- `Dxyn` DRW Vx, Vy, n (R104): VF is written last, also when n = 0. -/
def execDrw (x y : Nibble) (n : Nat) (s : State) : Host.Outcome State Fault Refusal :=
  let d := drawRows (s.readV x).toNat (s.readV y).toNat 0 (spriteBytes s.mem s.i n) (s.fb, false)
  .next ({ s with fb := d.1 }.writeV vf (collisionFlag d.2)).advance

end Sys2Proof.Machine
end

