-- ==== Sys2Proof/Machine/Index.lean ====
section
/-! DEFINITION. The index register and memory family (43_index_memory.md): `Annn`, `Fx1E`, `Fx29`, `Fx33`, `Fx55`,
`Fx65`. No access changes I (R190). -/

namespace Sys2Proof.Machine

/-- `Annn` LD I, nnn (R192). -/
def execLdI (nnn : Addr) (s : State) : Host.Outcome State Fault Refusal := .next (s.setI (zextAddr nnn)).advance

/-- `Fx1E` ADD I, Vx: wraps modulo 65536, no flag (R194). -/
def execAddI (x : Nibble) (s : State) : Host.Outcome State Fault Refusal :=
  .next (s.setI (s.i + zextByte (s.readV x))).advance

/-- `Fx29` LD F, Vx: the glyph of the digit in Vx's low nibble (R196). -/
def execLdGlyph (x : Nibble) (s : State) : Host.Outcome State Fault Refusal :=
  .next (s.setI (glyphAddress (lowNibble (s.readV x)))).advance

/-- `Fx33` LD B, Vx (R198). -/
def execLdBcd (x : Nibble) (s : State) : Host.Outcome State Fault Refusal :=
  .next { s with mem := Memory.storeEA s.i 0 (decimalDigits (s.readV x)) s.mem }.advance

/-- `Fx55` LD [I], Vx (R200). -/
def execStoreRegs (x : Nibble) (s : State) : Host.Outcome State Fault Refusal :=
  .next { s with mem := Memory.storeEA s.i 0 (s.regBlock x) s.mem }.advance

/-- `Fx65` LD Vx, [I] (R202). -/
def execLoadRegs (x : Nibble) (s : State) : Host.Outcome State Fault Refusal := .next (s.loadBlock x).advance

end Sys2Proof.Machine
end

