-- ==== Sys2Proof/Machine/Keys.lean ====
section
/-! DEFINITION. The keypad and timer family (44_keys_timers.md): `Ex9E`, `ExA1`, `Fx07`, `Fx0A`, `Fx15`, `Fx18`. -/

namespace Sys2Proof.Machine

/-- `Ex9E` SKP Vx (R220, R221). -/
def execSkp (x : Nibble) (s : State) : Host.Outcome State Fault Refusal :=
  .next (s.skipIf (keyPressed s.keys (lowNibble (s.readV x))))

/-- `ExA1` SKNP Vx (R220, R222). -/
def execSknp (x : Nibble) (s : State) : Host.Outcome State Fault Refusal :=
  .next (s.skipIf (!keyPressed s.keys (lowNibble (s.readV x))))

/-- `Fx07` LD Vx, DT (R224). -/
def execLdVxDt (x : Nibble) (s : State) : Host.Outcome State Fault Refusal := .next (s.writeV x s.dt).advance

/-- `Fx0A` LD Vx, K: with no key pressed nothing changes and PC still addresses the instruction; else the lowest
pressed key (R226). -/
def execLdVxKey (x : Nibble) (s : State) : Host.Outcome State Fault Refusal :=
  match lowestKey s.keys with
  | none => .next s
  | some k => .next (s.writeV x (keyByte k)).advance

/-- `Fx15` LD DT, Vx (R228). -/
def execLdDtVx (x : Nibble) (s : State) : Host.Outcome State Fault Refusal := .next (s.setDt (s.readV x)).advance

/-- `Fx18` LD ST, Vx, with the tone event of the change (R230, R266). -/
def execLdStVx (x : Nibble) (s : State) : Host.Outcome State Fault Refusal := .next (s.setSt (s.readV x)).advance

end Sys2Proof.Machine
end

