-- ==== Sys2Proof/Machine/Cycle.lean ====
section
/-! DEFINITION. The operations of the block (R260): the step cycle (R86), `Tick`, `Skip` and `Reset`, and the
performance of the next operation on the host's schedule (R262). -/

namespace Sys2Proof.Machine

/-- Fetch, decode and execute, each phase raising its fault before the next is reached (R86, R256). -/
def fetchDecodeExec (s : State) : Host.Outcome State Fault Refusal :=
  match s.fetch with
  | none => .next (s.raise .outOfBoundsFetch none)
  | some op =>
    match decode op with
    | none => .next (s.raise .illegalInstruction (some op))
    | some i => exec i s

/-- Sampling the inputs of a step (R86, R87). -/
def State.sample (keys : Word) (rnd : RndInput) (s : State) : State := { s with keys := keys, rnd := rnd }

/-- `Step(KEYS, RND)` (R86): nothing at all while FAULT is not None (R254). -/
def runStep (keys : Word) (rnd : RndInput) (s : State) : Host.Outcome State Fault Refusal :=
  if s.fault.isSome then .next s else fetchDecodeExec (s.sample keys rnd)

/-- A `Step` whose inputs the schedule does not name: the host keeps the keys it supplied last (R273) and supplies
some random byte, the next free value (R274; log 4, log 6). -/
def heldStep (s : State) : Host.Outcome State Fault Refusal :=
  if s.fault.isSome then .next s
  else runStep s.keys (.free s.freeCount) { s with freeCount := s.freeCount + 1 }

/-- `Skip()` for a value of HOST_SKIP_ON_FAULT: it exists only when that is true and is allowed only while FAULT is
not None (R255); elsewhere the call is refused (log 9). -/
def skipOp (offered : Bool) (s : State) : Host.Outcome State Fault Refusal :=
  if offered && s.fault.isSome then .next s.skipFault else .refused .skipNotOffered

/-- The state `Reset(image)` creates from an image that fits (R290, R291). -/
def loaded (image : List Byte) : State :=
  { State.reset with mem := Memory.copyImage Config.progBase image State.reset.mem }

/-- `Reset(image)` on no earlier state: a state, or ImageTooLarge with the length (R290, R294). -/
def resetWith (image : List Byte) : Host.Outcome State Fault Refusal :=
  if image.length ≤ Config.maxImage then .next (loaded image) else .fault (.imageTooLarge image.length)

/-- `Reset(image)` as the host's next operation: the core's state is all new (R290); what the host has scheduled, and
the count of free bytes already drawn, are no state of the core and stay (log 6). -/
def resetOp (image : List Byte) (s : State) : Host.Outcome State Fault Refusal :=
  match resetWith image with
  | .next t => .next { t with schedule := s.schedule, freeCount := s.freeCount }
  | .fault r => .fault r
  | .refused r => .refused r

/-- One operation of the host (R260). -/
def performOp (op : HostOp) (s : State) : Host.Outcome State Fault Refusal :=
  match op with
  | .step keys rnd => runStep keys (.supplied rnd) s
  | .tick => .next s.tick
  | .skip => skipOp Config.hostSkipOnFault s
  | .reset image => resetOp image s

/-- The next operation of the schedule; when the schedule is empty, a `Step` with held inputs (R262; log 4). -/
def nextOperation (s : State) : Host.Outcome State Fault Refusal :=
  match s.schedule with
  | [] => heldStep s
  | op :: rest => performOp op { s with schedule := rest }

/-- Whether an operation is a `Step`. -/
def HostOp.isStep : HostOp → Bool
  | .step _ _ => true
  | .tick | .skip | .reset _ => false

/-- The address the next step fetches from, once made fetchable: PC, or 0x200 where PC is outside memory
(log 11). -/
def fetchTarget (pc : Word) : Word := if fetchable pc then pc else BitVec.ofNat 16 Config.progBase

/-- A word placed where the next step fetches, with FAULT cleared and the schedule's next operation a step, so that
the next step runs it (log 11). -/
def State.placeWord (op : Word) (s : State) : State :=
  { s with
    pc := fetchTarget s.pc
    fault := none
    mem := (s.mem.write (fetchTarget s.pc).toNat (highByte op)).write ((fetchTarget s.pc).toNat + 1) (lowByte op)
    schedule := s.schedule.dropWhile (fun o => !o.isStep) }

end Sys2Proof.Machine
end

