-- ==== Sys2Proof/Machine/Step.lean ====
section
/-! DEFINITION. One step of the machine: the host's next operation on the core (R260, R262). -/

namespace Sys2Proof.Machine

/-- One operation: the next one of the schedule, a `Step` with held inputs when it is empty (R262; log 4). -/
def step (s : State) : Host.Outcome State Fault Refusal := nextOperation s

/-- The state with a table row's word where the next step fetches it (log 11). -/
def State.withFetchWord (s : State) (nbits w : Nat) : State := s.placeWord (tableWord nbits w)

end Sys2Proof.Machine
end

