-- ==== Sys2Proof/Machine/Ports.lean ====
section
/-! DEFINITION. The read ports of the block (R270): what the host reads between operations. A port is a function of the
state, so reading changes nothing (R271, R279). -/

namespace Sys2Proof.Machine

/-- The framebuffer read port: all 2048 pixels (R271). -/
def framebufferPort (s : State) (px : Fin 64) (py : Fin 32) : Bool := s.fb.pixel px py

/-- The fault port: None, or the code 1 to 4, the PC and the opcode (R270, R272). -/
def faultPort (s : State) : Option (Nat × Word × Option Word) := s.fault.map fun r => (r.kind.code, r.pc, r.opcode)

/-- The sound timer port: ST (R275). -/
def soundTimerPort (s : State) : Byte := s.st

/-- The tone event port over one operation from `s` to `t`, within one session: the events of `t` that `s` had not yet
emitted (R266, R275). -/
def tonePort (s t : State) : List ToneEvent := t.events.take (t.events.length - s.events.length)

/-- The tone is on exactly while ST ≠ 0 (R267). -/
def toneOn (s : State) : Bool := s.st != 0#8

end Sys2Proof.Machine
end

