-- ==== Sys2Proof/Safety.lean ====
section
/-! DEFINITION. The terms in which claims are stated: what a step leaves unchanged, what sampling the inputs is, and
the invariant of the machine. A run is safe while no state of it holds a fault (R254, R282). -/

namespace Sys2Proof.Machine

/-- No fault is latched (R37, R254). -/
def State.unfaulted (s : State) : Prop := s.fault = none

/-- The pieces of state an instruction may write, PC left aside (10_state.md). -/
inductive Part where
  | v | i | stack | dt | st | fb | mem | fault | inputs | tones
deriving DecidableEq, Repr

/-- A piece of state reads the same in two states; memory by its bytes, the stack by its slots and SP. -/
def Part.same : Part → State → State → Prop
  | .v, s, t => ∀ r, t.readV r = s.readV r
  | .i, s, t => t.i = s.i
  | .stack, s, t => t.sp = s.sp ∧ ∀ j, t.stack.get j = s.stack.get j
  | .dt, s, t => t.dt = s.dt
  | .st, s, t => t.st = s.st
  | .fb, s, t => ∀ px py, t.fb.pixel px py = s.fb.pixel px py
  | .mem, s, t => ∀ a, t.mem.read a = s.mem.read a
  | .fault, s, t => t.fault = s.fault
  | .inputs, s, t => t.keys = s.keys ∧ t.rnd = s.rnd ∧ t.schedule = s.schedule ∧ t.freeCount = s.freeCount
  | .tones, s, t => t.events = s.events

/-- Everything but PC and the named parts is the same in `t` as in `s`. -/
def Unchanged (written : List Part) (s t : State) : Prop := ∀ p, p ∉ written → p.same s t

/-- `exec` answers a next state, and that state is as `post` says. -/
def Completes (i : Instr) (s : State) (post : State → Prop) : Prop := ∃ t, exec i s = .next t ∧ post t

/-- Every word of a row of the opcode map decodes to the instruction `f` of its fields (R75). -/
def Encodes (mask pattern : Word) (f : Word → Instr) : Prop := ∀ op, op &&& mask = pattern → decode op = some (f op)

/-- `t` is `s` with `value` in Vx, PC advanced by 2, and everything else the same: no flag, no memory (R89). -/
def WritesVx (s : State) (x : Nibble) (value : Byte) (t : State) : Prop :=
  t.readV x = value ∧ (∀ r, r ≠ x → t.readV r = s.readV r) ∧ t.pc = s.pc + 2#16 ∧ Unchanged [.v] s t

/-- `t` is `s` with the flag in VF as 1 or 0, a number in Vx unless x = 0xF, PC advanced by 2, and everything else the
same (R35, R91). -/
def WritesVxAndFlag (s : State) (x : Nibble) (value : Nat) (flag : Prop) (t : State) : Prop :=
  (t.readV 15 = 1#8 ∧ flag ∨ t.readV 15 = 0#8 ∧ ¬ flag) ∧ (x ≠ 15 → (t.readV x).toNat = value) ∧
    (∀ r, r ≠ x → r ≠ 15 → t.readV r = s.readV r) ∧ t.pc = s.pc + 2#16 ∧ Unchanged [.v] s t

/-- `t` is `s` with PC advanced by 4 where the condition holds and by 2 where not, and everything else the same
(R126). -/
def SkipsWhen (s : State) (c : Prop) (t : State) : Prop :=
  (c → t.pc = s.pc + 4#16) ∧ (¬ c → t.pc = s.pc + 2#16) ∧ Unchanged [] s t

/-- A set bit of the sprite that `Dxyn` draws lands on the pixel: row `r` is the byte at (I + r) mod 4096, column `c`
its bit 7 − c (R104, R106). -/
def SpriteCovers (s : State) (x y : Nibble) (n : Nat) (px : Fin 64) (py : Fin 32) : Prop :=
  ∃ r c, r < n ∧ c < 8 ∧ (s.mem.read ((s.i.toNat + r) % 4096)).getLsbD (7 - c) = true ∧
    px.val = ((s.readV x).toNat + c) % 64 ∧ py.val = ((s.readV y).toNat + r) % 32

/-- The parts an instruction may write, the columns of R22; VF of a flag is in `v`, FAULT in the two faulting
instructions (R250). -/
def writtenParts : Instr → List Part
  | .cls => [.fb]
  | .ret | .call _ => [.stack, .fault]
  | .jp _ | .jpV0 _ | .seImm _ _ | .sneImm _ _ | .seReg _ _ | .sneReg _ _ | .skp _ | .sknp _ => []
  | .ldImm _ _ | .addImm _ _ | .ldReg _ _ | .or _ _ | .and _ _ | .xor _ _ | .addReg _ _ | .sub _ _ | .shr _ _
  | .subn _ _ | .shl _ _ | .rnd _ _ | .ldVxDt _ | .ldVxKey _ | .loadRegs _ => [.v]
  | .drw _ _ _ => [.v, .fb]
  | .ldI _ | .addI _ | .ldGlyph _ => [.i]
  | .ldBcd _ | .storeRegs _ => [.mem]
  | .ldDtVx _ => [.dt]
  | .ldStVx _ => [.st, .tones]

/-- The general registers an instruction may write, the columns Vx and VF of R22. -/
def writtenReg : Instr → Nibble → Prop
  | .ldImm x _, r | .addImm x _, r | .ldReg x _, r | .or x _, r | .and x _, r | .xor x _, r | .rnd x _, r
  | .ldVxDt x, r | .ldVxKey x, r => r = x
  | .addReg x _, r | .sub x _, r | .shr x _, r | .subn x _, r | .shl x _, r => r = x ∨ r = 15
  | .drw _ _ _, r => r = 15
  | .loadRegs x, r => r ≤ x
  | .cls, _ | .ret, _ | .jp _, _ | .call _, _ | .seImm _ _, _ | .sneImm _ _, _ | .seReg _ _, _ | .sneReg _ _, _
  | .ldI _, _ | .jpV0 _, _ | .skp _, _ | .sknp _, _ | .ldDtVx _, _ | .ldStVx _, _ | .addI _, _ | .ldGlyph _, _
  | .ldBcd _, _ | .storeRegs _, _ => False

/-- The addresses an instruction stores to: EA(0) to EA(2) for `Fx33`, EA(0) to EA(x) for `Fx55`, none for any other
(R52, R53). -/
def storesTo : Instr → State → Nat → Prop
  | .ldBcd _, s, a => ∃ k < 3, a = (s.i.toNat + k) % 4096
  | .storeRegs x, s, a => ∃ k ≤ x.val, a = (s.i.toNat + k) % 4096
  | .cls, _, _ | .ret, _, _ | .jp _, _, _ | .call _, _, _ | .seImm _ _, _, _ | .sneImm _ _, _, _ | .seReg _ _, _, _
  | .ldImm _ _, _, _ | .addImm _ _, _, _ | .ldReg _ _, _, _ | .or _ _, _, _ | .and _ _, _, _ | .xor _ _, _, _
  | .addReg _ _, _, _ | .sub _ _, _, _ | .shr _ _, _, _ | .subn _ _, _, _ | .shl _ _, _, _ | .sneReg _ _, _, _
  | .ldI _, _, _ | .jpV0 _, _, _ | .rnd _ _, _, _ | .drw _ _ _, _, _ | .skp _, _, _ | .sknp _, _, _
  | .ldVxDt _, _, _ | .ldVxKey _, _, _ | .ldDtVx _, _, _ | .ldStVx _, _, _ | .addI _, _, _ | .ldGlyph _, _, _
  | .loadRegs _, _, _ => False

/-- `s'` is `s` with the inputs of its next operation sampled, where that operation is a `Step` (R86): the schedule's
head, or, when the schedule is empty, the held keys and the next free random byte (log 4, log 6). -/
def SamplesTo (s s' : State) : Prop :=
  (s.schedule = [] ∧ s' = { s with rnd := .free s.freeCount, freeCount := s.freeCount + 1 }) ∨
  ∃ keys rnd rest, s.schedule = .step keys rnd :: rest ∧
    s' = { s with keys := keys, rnd := .supplied rnd, schedule := rest }

/-- Every saved return address is a sequential-advance value of a fetched instruction, at most 0x1000 (R25). -/
def StackTargetsLegal (s : State) : Prop := ∀ j : Fin 16, j.val < s.sp.val → (s.stack.get j).toNat ≤ 0x1000

/-- The events, newest first, alternate, the oldest is a start, and the newest says whether the tone is on
(R267). -/
def toneAlternates : Bool → List ToneEvent → Bool
  | on, [] => !on
  | true, .start :: rest => toneAlternates false rest
  | false, .stop :: rest => toneAlternates true rest
  | true, .stop :: _ => false
  | false, .start :: _ => false

/-- The invariant of the machine: memory is canonical (log 1), the live stack slots are legal (R25), and the tone
events emitted match ST (R267). -/
def State.Inv (s : State) : Prop :=
  s.mem.wf = true ∧ StackTargetsLegal s ∧ toneAlternates (toneOn s) s.events = true

end Sys2Proof.Machine
end

