-- ==== Sys2Proof/Certificates/Slice0/Obligations.lean ====
section
/-! DEFINITION. The statements for the provers. Each docstring names the rules of spec/ it formalises; D<n> is a
decision the spec marks as its own (92_eei_decisions.md), log <n> the model's (notes/assumptions). Where a statement
speaks of `step`, that its operation and inputs come from the schedule (`SamplesTo`) is the model's (log 4, log 6). -/

open Sys2Proof Sys2Proof.Machine

/-! ### Encoding (30_encoding.md) -/

/-- R72: the fields of an opcode, as numbers; an instruction that does not use a field ignores it, which concerns the
`y` of the two shifts alone (R77). -/
def Obligations.FieldsAreTheirBits : Prop :=
  (∀ op : Word, (fieldX op).val = op.toNat / 2 ^ 8 % 2 ^ 4 ∧ (fieldY op).val = op.toNat / 2 ^ 4 % 2 ^ 4 ∧
    (fieldN op).toNat = op.toNat % 2 ^ 4 ∧ (fieldKK op).toNat = op.toNat % 2 ^ 8 ∧
    (fieldNNN op).toNat = op.toNat % 2 ^ 12 ∧ (fieldOp4 op).toNat = op.toNat / 2 ^ 12) ∧
  ∀ x y y' s, exec (.shr x y) s = exec (.shr x y') s ∧ exec (.shl x y) s = exec (.shl x y') s

/-- R75: the 34 rows of the opcode map. A word is of a row when `op AND mask = match`, and it is then that row's
instruction on its fields; a word of no row is no instruction. -/
def Obligations.DecodeFollowsTheOpcodeMap : Prop :=
  Encodes 0xFFFF#16 0x00E0#16 (fun _ => .cls) ∧
  Encodes 0xFFFF#16 0x00EE#16 (fun _ => .ret) ∧
  Encodes 0xF000#16 0x1000#16 (fun op => .jp (fieldNNN op)) ∧
  Encodes 0xF000#16 0x2000#16 (fun op => .call (fieldNNN op)) ∧
  Encodes 0xF000#16 0x3000#16 (fun op => .seImm (fieldX op) (fieldKK op)) ∧
  Encodes 0xF000#16 0x4000#16 (fun op => .sneImm (fieldX op) (fieldKK op)) ∧
  Encodes 0xF00F#16 0x5000#16 (fun op => .seReg (fieldX op) (fieldY op)) ∧
  Encodes 0xF000#16 0x6000#16 (fun op => .ldImm (fieldX op) (fieldKK op)) ∧
  Encodes 0xF000#16 0x7000#16 (fun op => .addImm (fieldX op) (fieldKK op)) ∧
  Encodes 0xF00F#16 0x8000#16 (fun op => .ldReg (fieldX op) (fieldY op)) ∧
  Encodes 0xF00F#16 0x8001#16 (fun op => .or (fieldX op) (fieldY op)) ∧
  Encodes 0xF00F#16 0x8002#16 (fun op => .and (fieldX op) (fieldY op)) ∧
  Encodes 0xF00F#16 0x8003#16 (fun op => .xor (fieldX op) (fieldY op)) ∧
  Encodes 0xF00F#16 0x8004#16 (fun op => .addReg (fieldX op) (fieldY op)) ∧
  Encodes 0xF00F#16 0x8005#16 (fun op => .sub (fieldX op) (fieldY op)) ∧
  Encodes 0xF00F#16 0x8006#16 (fun op => .shr (fieldX op) (fieldY op)) ∧
  Encodes 0xF00F#16 0x8007#16 (fun op => .subn (fieldX op) (fieldY op)) ∧
  Encodes 0xF00F#16 0x800E#16 (fun op => .shl (fieldX op) (fieldY op)) ∧
  Encodes 0xF00F#16 0x9000#16 (fun op => .sneReg (fieldX op) (fieldY op)) ∧
  Encodes 0xF000#16 0xA000#16 (fun op => .ldI (fieldNNN op)) ∧
  Encodes 0xF000#16 0xB000#16 (fun op => .jpV0 (fieldNNN op)) ∧
  Encodes 0xF000#16 0xC000#16 (fun op => .rnd (fieldX op) (fieldKK op)) ∧
  Encodes 0xF000#16 0xD000#16 (fun op => .drw (fieldX op) (fieldY op) (fieldN op).toNat) ∧
  Encodes 0xF0FF#16 0xE09E#16 (fun op => .skp (fieldX op)) ∧
  Encodes 0xF0FF#16 0xE0A1#16 (fun op => .sknp (fieldX op)) ∧
  Encodes 0xF0FF#16 0xF007#16 (fun op => .ldVxDt (fieldX op)) ∧
  Encodes 0xF0FF#16 0xF00A#16 (fun op => .ldVxKey (fieldX op)) ∧
  Encodes 0xF0FF#16 0xF015#16 (fun op => .ldDtVx (fieldX op)) ∧
  Encodes 0xF0FF#16 0xF018#16 (fun op => .ldStVx (fieldX op)) ∧
  Encodes 0xF0FF#16 0xF01E#16 (fun op => .addI (fieldX op)) ∧
  Encodes 0xF0FF#16 0xF029#16 (fun op => .ldGlyph (fieldX op)) ∧
  Encodes 0xF0FF#16 0xF033#16 (fun op => .ldBcd (fieldX op)) ∧
  Encodes 0xF0FF#16 0xF055#16 (fun op => .storeRegs (fieldX op)) ∧
  Encodes 0xF0FF#16 0xF065#16 (fun op => .loadRegs (fieldX op)) ∧
  ∀ op, decode op = none ↔ ∀ row ∈ opcodeMap, row.matches op = false

/-- R79 (which the spec marks as derived): no word matches two rows of the opcode map. -/
def Obligations.OpcodeRowsAreDisjoint : Prop :=
  ∀ op, ∀ row ∈ opcodeMap, ∀ row' ∈ opcodeMap, row.matches op = true → row'.matches op = true → row = row'

/-- R76, R77, R78: which words of families 0, 5, 8, 9, E and F are instructions, and that the `y` field of the shifts
takes any value and is ignored. -/
def Obligations.FamiliesDecodeOnTheirSelectors : Prop :=
  (∀ op, fieldOp4 op = 0x0#4 → (decode op = some .cls ↔ op = 0x00E0#16) ∧ (decode op = some .ret ↔ op = 0x00EE#16) ∧
    (decode op = none ↔ op ≠ 0x00E0#16 ∧ op ≠ 0x00EE#16)) ∧
  (∀ op, fieldOp4 op = 0x5#4 → ((∃ x y, decode op = some (.seReg x y)) ↔ (fieldN op).toNat = 0) ∧
    (decode op = none ↔ (fieldN op).toNat ≠ 0)) ∧
  (∀ op, fieldOp4 op = 0x9#4 → ((∃ x y, decode op = some (.sneReg x y)) ↔ (fieldN op).toNat = 0) ∧
    (decode op = none ↔ (fieldN op).toNat ≠ 0)) ∧
  (∀ op, fieldOp4 op = 0x8#4 →
    (decode op = none ↔ (fieldN op).toNat ∈ [0x8, 0x9, 0xA, 0xB, 0xC, 0xD, 0xF])) ∧
  (∀ x y y' s, exec (.shr x y) s = exec (.shr x y') s ∧ exec (.shl x y) s = exec (.shl x y') s) ∧
  (∀ x y, decode (packXYN 0x8#4 x y 0x6#4) = some (.shr x y) ∧ decode (packXYN 0x8#4 x y 0xE#4) = some (.shl x y)) ∧
  (∀ op, fieldOp4 op = 0xE#4 → ((∃ x, decode op = some (.skp x)) ↔ fieldKK op = 0x9E#8) ∧
    ((∃ x, decode op = some (.sknp x)) ↔ fieldKK op = 0xA1#8) ∧
    (decode op = none ↔ fieldKK op ≠ 0x9E#8 ∧ fieldKK op ≠ 0xA1#8)) ∧
  (∀ op, fieldOp4 op = 0xF#4 → (decode op = none ↔
    (fieldKK op).toNat ∉ [0x07, 0x0A, 0x15, 0x18, 0x1E, 0x29, 0x33, 0x55, 0x65]))

/-- R70 to R75: decoding the word of a well-formed instruction gives the instruction back, with every operand. -/
def Obligations.DecodeEncodeRoundTrip : Prop := ∀ i : Instr, i.wellFormed = true → decode (encode i) = some i

/-- R75, R79: a word that decodes is the word of a well-formed instruction, so every word has one meaning and every
bit of it counts. -/
def Obligations.EncodeDecodeRoundTrip : Prop :=
  ∀ (op : Word) (i : Instr), decode op = some i → i.wellFormed = true ∧ encode i = op

/-- Words written out from the patterns of R75, one or more of each family (a sanity statement). -/
def Obligations.SampleWordsDecode : Prop :=
  decode 0x00E0#16 = some .cls ∧ decode 0x00EE#16 = some .ret ∧ decode 0x1ABC#16 = some (.jp 0xABC#12) ∧
  decode 0x8236#16 = some (.shr 2 3) ∧ decode 0x71FF#16 = some (.addImm 1 0xFF#8) ∧
  decode 0xDF15#16 = some (.drw 15 1 5) ∧ decode 0xE3A1#16 = some (.sknp 3) ∧ decode 0xA20A#16 = some (.ldI 0x20A#12) ∧
  decode 0xF155#16 = some (.storeRegs 1) ∧ decode 0x0123#16 = none ∧ decode 0xF075#16 = none

/-! ### The step cycle and faults (30_encoding.md, 60_exceptions.md) -/

/-- R86, R88: when the two bytes at PC, high byte first, decode to `i`, a step is `exec i` on the state with its
inputs sampled. How the inputs come is the model's (log 4). -/
def Obligations.StepRunsTheDecodedInstruction : Prop :=
  ∀ (s s' : State) (i : Instr), s.unfaulted → SamplesTo s s' → s.pc.toNat ≤ 0x0FFE →
    decode (BitVec.ofNat 16 ((s.mem.read s.pc.toNat).toNat * 256 + (s.mem.read (s.pc.toNat + 1)).toNat)) = some i →
    step s = exec i s'

/-- R250 with R88, R90, R252, R256: from a state without a fault a step answers a next state, whose FAULT is that of
the first failing phase: fetch, then decode, then the instruction's own. D3, D4 and D8 are the spec's decisions. -/
def Obligations.FaultCausesAndPriority : Prop :=
  ∀ (s s' : State), s.unfaulted → SamplesTo s s' → ∃ t, step s = .next t ∧
    let op := BitVec.ofNat 16 ((s.mem.read s.pc.toNat).toNat * 256 + (s.mem.read (s.pc.toNat + 1)).toNat)
    t.fault =
      if s.pc.toNat ≥ 0x0FFF then some ⟨.outOfBoundsFetch, s.pc, none⟩
      else if decode op = none then some ⟨.illegalInstruction, s.pc, some op⟩
      else if op.toNat / 4096 = 2 ∧ s.sp.val = 16 then some ⟨.stackOverflow, s.pc, some op⟩
      else if op.toNat = 0x00EE ∧ s.sp.val = 0 then some ⟨.stackUnderflow, s.pc, some op⟩
      else none

/-- R90, R253: a step that raises a fault leaves everything but FAULT and the sampled inputs as it was, PC
included. D3 is the spec's decision. -/
def Obligations.FaultingStepCommitsNothing : Prop :=
  ∀ (s s' t : State), s.unfaulted → SamplesTo s s' → step s = .next t → t.fault ≠ none →
    (∀ p : Part, p ≠ .fault → p.same s' t) ∧ t.pc = s.pc ∧ ∃ r, t.fault = some r ∧ r.pc = s.pc

/-- R254, R265: while FAULT holds a record a `Step` changes nothing, and a `Tick` still counts. D3 and D28 are the
spec's decisions; the schedule is the model's (log 4). -/
def Obligations.LatchedFaultStopsSteps : Prop :=
  ∀ (s : State) (r : FaultRecord), s.fault = some r →
    (s.schedule = [] → step s = .next s) ∧
    (∀ keys rnd rest, s.schedule = .step keys rnd :: rest → step s = .next { s with schedule := rest }) ∧
    (∀ rest, s.schedule = .tick :: rest → ∃ t, step s = .next t ∧ t.fault = some r ∧
      t.dt.toNat = s.dt.toNat - 1 ∧ t.st.toNat = s.st.toNat - 1)

/-- R254: FAULT is cleared by a `Reset` or a `Skip` and by nothing else. D3 is the spec's decision. -/
def Obligations.OnlyResetAndSkipClearAFault : Prop :=
  ∀ (s t : State) (r : FaultRecord), s.fault = some r → step s = .next t →
    t.fault = some r ∨ ∃ rest, s.schedule = .skip :: rest ∨ ∃ image, s.schedule = .reset image :: rest

/-- R255: `Skip` clears FAULT and adds 2 to PC, and changes nothing else; the model refuses it where
HOST_SKIP_ON_FAULT is false or nothing is latched (log 3, log 9). -/
def Obligations.SkipPassesTheFaultingInstruction : Prop :=
  ∀ (s : State) (rest : List HostOp), s.schedule = .skip :: rest →
    step s = if Config.hostSkipOnFault = true ∧ s.fault ≠ none
      then .next { s with schedule := rest, fault := none, pc := s.pc + 2#16 }
      else .refused .skipNotOffered

/-! ### Whole-machine rules over all instructions -/

/-- R89: the PC after every instruction, and that every instruction answers a next state in every state (R257). -/
def Obligations.NextPcOfEveryInstruction : Prop :=
  ∀ (i : Instr) (s : State), ∃ t, exec i s = .next t ∧ t.pc = match i with
    | .ret => if h : s.sp.val = 0 then s.pc else s.stack[s.sp.val - 1]
    | .jp nnn => BitVec.ofNat 16 nnn.toNat
    | .call nnn => if s.sp.val = 16 then s.pc else BitVec.ofNat 16 nnn.toNat
    | .jpV0 nnn => BitVec.ofNat 16 (nnn.toNat + (s.readV 0).toNat)
    | .seImm x kk => if s.readV x = kk then s.pc + 4#16 else s.pc + 2#16
    | .sneImm x kk => if s.readV x ≠ kk then s.pc + 4#16 else s.pc + 2#16
    | .seReg x y => if s.readV x = s.readV y then s.pc + 4#16 else s.pc + 2#16
    | .sneReg x y => if s.readV x ≠ s.readV y then s.pc + 4#16 else s.pc + 2#16
    | .skp x => if s.keys.getLsbD ((s.readV x).toNat % 16) then s.pc + 4#16 else s.pc + 2#16
    | .sknp x => if s.keys.getLsbD ((s.readV x).toNat % 16) then s.pc + 2#16 else s.pc + 4#16
    | .ldVxKey _ => if s.keys = 0#16 then s.pc else s.pc + 2#16
    | _ => s.pc + 2#16

/-- R22 (which the spec marks as derived): an instruction writes nothing but the parts and the registers of its row of
the access table, and PC. -/
def Obligations.InstructionsWriteOnlyTheirRow : Prop :=
  ∀ (i : Instr) (s t : State), exec i s = .next t →
    Unchanged (writtenParts i) s t ∧ ∀ r, ¬ writtenReg i r → t.readV r = s.readV r

/-- R87: KEYS is read by `Ex9E`, `ExA1` and `Fx0A` alone, RND by `Cxkk` alone: for every other instruction another
value of the input changes nothing but the latch itself. -/
def Obligations.InputsAreReadByTheirInstructions : Prop :=
  ∀ (i : Instr) (s t : State), exec i s = .next t →
    (∀ keys, (∀ x, i ≠ .skp x ∧ i ≠ .sknp x ∧ i ≠ .ldVxKey x) →
      exec i { s with keys := keys } = .next { t with keys := keys }) ∧
    (∀ rnd, (∀ x kk, i ≠ .rnd x kk) → exec i { s with rnd := rnd } = .next { t with rnd := rnd })

/-- R53, R52: beside the fetch, `Dxyn` and `Fx65` alone read memory: any other instruction, run on any other memory,
stores the same bytes at the same addresses, leaves every other byte of either memory, and does the same to everything
else. Of those instructions `Fx33` and `Fx55` alone write memory. The address mask is the spec's decision (D5). -/
def Obligations.MemoryIsReadByDrawAndLoad : Prop :=
  ∀ (i : Instr) (s t : State) (m : Memory), exec i s = .next t →
    (∀ x y n, i ≠ .drw x y n) → (∀ x, i ≠ .loadRegs x) →
    ∃ m', exec i { s with mem := m } = .next { t with mem := m' } ∧
      (∀ a, storesTo i s a → m'.read a = t.mem.read a) ∧
      (∀ a, ¬ storesTo i s a → m'.read a = m.read a ∧ t.mem.read a = s.mem.read a) ∧
      ((∀ x, i ≠ .ldBcd x ∧ i ≠ .storeRegs x) → m' = m ∧ t.mem = s.mem)

/-- R266: an operation but `Reset` emits the tone event of the edge of ST over it, and no other; a step that raises a
fault emits none. The log of events is the model's (log 7), D27 the spec's decision. -/
def Obligations.ToneEventsAreTheEdgesOfSt : Prop :=
  ∀ (s t : State), step s = .next t → (∀ image rest, s.schedule ≠ .reset image :: rest) →
    t.events = if s.st = 0#8 ∧ t.st ≠ 0#8 then .start :: s.events
      else if s.st ≠ 0#8 ∧ t.st = 0#8 then .stop :: s.events else s.events

/-- R25 (which the spec marks as derived): after a step that fetched, PC is at most 0x10FE, if every saved return
address is one that a fetched call pushed. -/
def Obligations.PcStaysBounded : Prop :=
  ∀ (s s' t : State), s.unfaulted → StackTargetsLegal s → SamplesTo s s' → s.pc.toNat ≤ 0x0FFE →
    step s = .next t → t.pc.toNat ≤ 0x10FE

/-- The invariant of the machine is kept by every step: memory stays canonical (log 1), saved return addresses stay at
most 0x1000 (R25), tone events alternate and match ST (R267). -/
def Obligations.EveryStepKeepsTheInvariant : Prop := ∀ (s t : State), s.Inv → step s = .next t → t.Inv

/-- The invariant holds after reset: the canonical form of memory (log 1) and the list of tone events (log 7) are the
model's. -/
def Obligations.ResetMeetsTheInvariant : Prop := State.reset.Inv

/-! ### Register and ALU family (42_alu.md) -/

/-- R150, R154, R156, R158, R160: loads, copies and bitwise logic; no flag. -/
def Obligations.LoadsAndLogic : Prop :=
  (Encodes 0xF000#16 0x6000#16 (fun op => .ldImm (fieldX op) (fieldKK op)) ∧
    ∀ s x kk, Completes (.ldImm x kk) s (WritesVx s x kk)) ∧
  (Encodes 0xF00F#16 0x8000#16 (fun op => .ldReg (fieldX op) (fieldY op)) ∧
    ∀ s x y, Completes (.ldReg x y) s (WritesVx s x (s.readV y))) ∧
  (Encodes 0xF00F#16 0x8001#16 (fun op => .or (fieldX op) (fieldY op)) ∧
    ∀ s x y, Completes (.or x y) s fun t => ∃ v, WritesVx s x v t ∧
      ∀ k < 8, v.getLsbD k = ((s.readV x).getLsbD k || (s.readV y).getLsbD k)) ∧
  (Encodes 0xF00F#16 0x8002#16 (fun op => .and (fieldX op) (fieldY op)) ∧
    ∀ s x y, Completes (.and x y) s fun t => ∃ v, WritesVx s x v t ∧
      ∀ k < 8, v.getLsbD k = ((s.readV x).getLsbD k && (s.readV y).getLsbD k)) ∧
  (Encodes 0xF00F#16 0x8003#16 (fun op => .xor (fieldX op) (fieldY op)) ∧
    ∀ s x y, Completes (.xor x y) s fun t => ∃ v, WritesVx s x v t ∧
      ∀ k < 8, v.getLsbD k = ((s.readV x).getLsbD k ^^ (s.readV y).getLsbD k))

/-- R152: `7xkk` adds modulo 256 and writes no flag. -/
def Obligations.AddImmediateWraps : Prop :=
  Encodes 0xF000#16 0x7000#16 (fun op => .addImm (fieldX op) (fieldKK op)) ∧
  ∀ s x kk, Completes (.addImm x kk) s fun t => ∃ v, WritesVx s x v t ∧
    v.toNat = ((s.readV x).toNat + kk.toNat) % 256

/-- R162, R164, R168: sums and differences modulo 256 with their flags; with x = 0xF the flag remains (D10), and the
operands are those before the step (D9). -/
def Obligations.ArithmeticWithFlag : Prop :=
  (∀ s x y, Completes (.addReg x y) s (WritesVxAndFlag s x
    (((s.readV x).toNat + (s.readV y).toNat) % 256) ((s.readV x).toNat + (s.readV y).toNat > 255))) ∧
  (∀ s x y, Completes (.sub x y) s (WritesVxAndFlag s x
    (((s.readV x).toNat + 256 - (s.readV y).toNat) % 256) ((s.readV x).toNat > (s.readV y).toNat))) ∧
  (∀ s x y, Completes (.subn x y) s (WritesVxAndFlag s x
    (((s.readV y).toNat + 256 - (s.readV x).toNat) % 256) ((s.readV y).toNat > (s.readV x).toNat)))

/-- R166, R170: shifts of Vx by one, y ignored, with the bit shifted out; with x = 0xF the flag remains (D10). -/
def Obligations.ShiftsWithFlag : Prop :=
  (∀ s x y, Completes (.shr x y) s (WritesVxAndFlag s x ((s.readV x).toNat / 2) ((s.readV x).toNat % 2 = 1))) ∧
  (∀ s x y, Completes (.shl x y) s (WritesVxAndFlag s x ((s.readV x).toNat * 2 % 256) ((s.readV x).toNat ≥ 128)))

/-- R172: `Cxkk` writes the step's random byte AND kk, whatever the byte is (D26): the byte that is the argument of the
`Step`, or, where the host names none, a free value (log 6). -/
def Obligations.RandomIsMasked : Prop :=
  ∀ s x kk, Completes (.rnd x kk) s fun t => ∃ v, WritesVx s x v t ∧
    (∀ k < 8, v.getLsbD k = (s.rnd.value.getLsbD k && kk.getLsbD k)) ∧
    (∀ b, s.rnd = .supplied b → ∀ k < 8, v.getLsbD k = (b.getLsbD k && kk.getLsbD k)) ∧
    (∀ n, s.rnd = .free n → ∀ k < 8, v.getLsbD k = ((Config.freeRnd n).getLsbD k && kk.getLsbD k))

/-! ### Control-flow family (41_flow.md) -/

/-- R122, R136: jumps set PC alone; the `Bnnn` sum is not masked to 12 bits (D7). -/
def Obligations.JumpsSetPcAlone : Prop :=
  (∀ s nnn, Completes (.jp nnn) s fun t => t.pc.toNat = nnn.toNat ∧ Unchanged [] s t) ∧
  (∀ s nnn, Completes (.jpV0 nnn) s fun t => t.pc.toNat = nnn.toNat + (s.readV 0).toNat ∧ Unchanged [] s t)

/-- R124, R27: with a free slot a call pushes the address of the next instruction (D32), and goes to nnn; with the
stack full it raises StackOverflow and does nothing else (D3). -/
def Obligations.CallPushesTheNextAddress : Prop :=
  (∀ s nnn, s.sp.val < 16 → Completes (.call nnn) s fun t => t.pc.toNat = nnn.toNat ∧ t.sp.val = s.sp.val + 1 ∧
    (∀ j : Fin 16, t.stack.get j = if j.val = s.sp.val then s.pc + 2#16 else s.stack.get j) ∧
    Unchanged [.stack] s t) ∧
  (∀ s nnn, s.sp.val = 16 → Completes (.call nnn) s fun t => t.pc = s.pc ∧
    t.fault = some ⟨.stackOverflow, s.pc, some (packNNN 0x2#4 nnn)⟩ ∧ Unchanged [.fault] s t)

/-- R120, R27: with a saved frame a return goes to the last pushed address, adding nothing, and leaves the slot as it
is (D29); with none it raises StackUnderflow and does nothing else (D3). -/
def Obligations.ReturnPopsTheLastAddress : Prop :=
  (∀ s (j : Fin 16), s.sp.val = j.val + 1 → Completes .ret s fun t => t.pc = s.stack.get j ∧ t.sp.val = j.val ∧
    (∀ k, t.stack.get k = s.stack.get k) ∧ Unchanged [.stack] s t) ∧
  (∀ s, s.sp.val = 0 → Completes .ret s fun t => t.pc = s.pc ∧
    t.fault = some ⟨.stackUnderflow, s.pc, some 0x00EE#16⟩ ∧ Unchanged [.fault] s t)

/-- R124, R120: a call followed by a return resumes after the call, with SP and every slot below it as before
(C1, D32). -/
def Obligations.ReturnUndoesCall : Prop :=
  ∀ (s t u : State) (nnn : Addr), s.sp.val < 16 → exec (.call nnn) s = .next t → exec .ret t = .next u →
    u.pc = s.pc + 2#16 ∧ u.sp = s.sp ∧ (∀ j : Fin 16, j.val ≠ s.sp.val → u.stack.get j = s.stack.get j) ∧
    Unchanged [.stack] s u

/-- R127, R129, R131, R133: the four skips on registers and immediates. -/
def Obligations.RegisterSkips : Prop :=
  (Encodes 0xF000#16 0x3000#16 (fun op => .seImm (fieldX op) (fieldKK op)) ∧
    ∀ s x kk, Completes (.seImm x kk) s (SkipsWhen s (s.readV x = kk))) ∧
  (Encodes 0xF000#16 0x4000#16 (fun op => .sneImm (fieldX op) (fieldKK op)) ∧
    ∀ s x kk, Completes (.sneImm x kk) s (SkipsWhen s (s.readV x ≠ kk))) ∧
  (Encodes 0xF00F#16 0x5000#16 (fun op => .seReg (fieldX op) (fieldY op)) ∧
    ∀ s x y, Completes (.seReg x y) s (SkipsWhen s (s.readV x = s.readV y))) ∧
  (Encodes 0xF00F#16 0x9000#16 (fun op => .sneReg (fieldX op) (fieldY op)) ∧
    ∀ s x y, Completes (.sneReg x y) s (SkipsWhen s (s.readV x ≠ s.readV y)))

/-! ### Display family (40_display.md) -/

/-- R102: `00E0` turns every pixel off and changes nothing else but PC. -/
def Obligations.ClearTurnsEveryPixelOff : Prop :=
  Encodes 0xFFFF#16 0x00E0#16 (fun _ => .cls) ∧
  ∀ s, Completes .cls s fun t => (∀ px py, t.fb.pixel px py = false) ∧ t.pc = s.pc + 2#16 ∧ Unchanged [.fb] s t

/-- R104, R106, R108: a draw toggles exactly the pixels under the sprite's set bits, wrapping (D11), and VF is 1
exactly when one of them was on; with n = 0 nothing but VF changes. -/
def Obligations.DrawXorsTheSprite : Prop :=
  ∀ (s : State) (x y : Nibble) (n : Nat), n < 16 → Completes (.drw x y n) s fun t =>
    (∀ px py, (SpriteCovers s x y n px py → t.fb.pixel px py = !s.fb.pixel px py) ∧
      (¬ SpriteCovers s x y n px py → t.fb.pixel px py = s.fb.pixel px py)) ∧
    ((∃ px py, s.fb.pixel px py = true ∧ SpriteCovers s x y n px py) → t.readV 15 = 1#8) ∧
    ((∀ px py, SpriteCovers s x y n px py → s.fb.pixel px py = false) → t.readV 15 = 0#8) ∧
    (∀ r, r ≠ 15 → t.readV r = s.readV r) ∧ t.pc = s.pc + 2#16 ∧ Unchanged [.v, .fb] s t

/-- R110 (which the spec marks as derived): drawing a sprite twice at one place restores the grid, and the second draw
reports a collision exactly when a set bit landed on a pixel that was off before the first. With x or y = 0xF the
first draw moves the sprite, so the coordinates are read back before the second draw. -/
def Obligations.DrawTwiceRestoresTheGrid : Prop :=
  ∀ (s t t' u : State) (x y : Nibble) (n : Nat), n < 16 → exec (.drw x y n) s = .next t →
    (t'.readV x = s.readV x ∧ t'.readV y = s.readV y ∧ t'.i = s.i ∧ t'.mem = s.mem ∧ t'.fb = t.fb) →
    exec (.drw x y n) t' = .next u →
    (∀ px py, u.fb.pixel px py = s.fb.pixel px py) ∧
    (u.readV 15 = 1#8 ↔ ∃ px py, SpriteCovers s x y n px py ∧ s.fb.pixel px py = false)

/-! ### Index register and memory family (43_index_memory.md, 20_memory.md) -/

/-- R192: `Annn` sets I to nnn, zero-extended. -/
def Obligations.LoadIndex : Prop :=
  Encodes 0xF000#16 0xA000#16 (fun op => .ldI (fieldNNN op)) ∧
  ∀ s nnn, Completes (.ldI nnn) s fun t => t.i.toNat = nnn.toNat ∧ t.pc = s.pc + 2#16 ∧ Unchanged [.i] s t

/-- R194, R196: `Fx1E` adds modulo 65536 with no flag (D6); `Fx29` points I at the glyph of the low nibble (D17). -/
def Obligations.IndexAddAndGlyph : Prop :=
  (∀ s x, Completes (.addI x) s fun t =>
    t.i.toNat = (s.i.toNat + (s.readV x).toNat) % 65536 ∧ t.pc = s.pc + 2#16 ∧ Unchanged [.i] s t) ∧
  (∀ s x, Completes (.ldGlyph x) s fun t =>
    t.i.toNat = (s.readV x).toNat % 16 * 5 ∧ t.pc = s.pc + 2#16 ∧ Unchanged [.i] s t)

/-- R198, R52: `Fx33` stores the hundreds, tens and ones of Vx at (I + k) mod 4096 (D5) and no other byte; I is
unchanged. -/
def Obligations.DecimalDigitsAreStored : Prop :=
  ∀ s x, Completes (.ldBcd x) s fun t =>
    (t.mem.read (s.i.toNat % 4096)).toNat = (s.readV x).toNat / 100 ∧
    (t.mem.read ((s.i.toNat + 1) % 4096)).toNat = (s.readV x).toNat / 10 % 10 ∧
    (t.mem.read ((s.i.toNat + 2) % 4096)).toNat = (s.readV x).toNat % 10 ∧
    (∀ a, (∀ k < 3, a ≠ (s.i.toNat + k) % 4096) → t.mem.read a = s.mem.read a) ∧
    t.pc = s.pc + 2#16 ∧ Unchanged [.mem] s t

/-- R200, R52: `Fx55` stores V0 to Vx at (I + k) mod 4096 (D5) and no other byte; I is unchanged (D18). -/
def Obligations.StoreRegistersWritesTheBlock : Prop :=
  ∀ s x, Completes (.storeRegs x) s fun t =>
    (∀ k : Fin 16, k ≤ x → t.mem.read ((s.i.toNat + k.val) % 4096) = s.readV k) ∧
    (∀ a, (∀ k : Fin 16, k ≤ x → a ≠ (s.i.toNat + k.val) % 4096) → t.mem.read a = s.mem.read a) ∧
    t.pc = s.pc + 2#16 ∧ Unchanged [.mem] s t

/-- R202, R52: `Fx65` loads V0 to Vx from (I + k) mod 4096 (D5) and no other register; I is unchanged (D18). -/
def Obligations.LoadRegistersReadsTheBlock : Prop :=
  ∀ s x, Completes (.loadRegs x) s fun t =>
    (∀ k : Fin 16, k ≤ x → t.readV k = s.mem.read ((s.i.toNat + k.val) % 4096)) ∧
    (∀ k : Fin 16, ¬ k ≤ x → t.readV k = s.readV k) ∧ t.pc = s.pc + 2#16 ∧ Unchanged [.v] s t

/-- R200, R202: loading a stored block gives the registers back, whatever the registers held in between. -/
def Obligations.LoadAfterStoreGivesTheRegistersBack : Prop :=
  ∀ (s t t' u : State) (x : Nibble), exec (.storeRegs x) s = .next t → t'.mem = t.mem → t'.i = t.i →
    exec (.loadRegs x) t' = .next u → ∀ k, k ≤ x → u.readV k = s.readV k

/-- R57: memory is plain storage: a write changes the addressed byte alone, and a read changes nothing. -/
def Obligations.MemoryIsPlainStorage : Prop :=
  ∀ (m : Memory) (a a' : Nat) (b : Byte), (m.write a b).read a = b ∧ (a' ≠ a → (m.write a b).read a' = m.read a')

/-- R63, R301: an instruction whose two bytes `Fx55` stored at I is the one the next step at I executes, with no fence
(D22). -/
def Obligations.StoredInstructionIsExecuted : Prop :=
  ∀ (s t u u' : State) (x : Nibble) (i : Instr), 1 ≤ x.val → s.i.toNat ≤ 0x0FFE → exec (.storeRegs x) s = .next t →
    u.mem = t.mem → u.pc = s.i → u.unfaulted → SamplesTo u u' →
    decode (BitVec.ofNat 16 ((s.readV 0).toNat * 256 + (s.readV 1).toNat)) = some i → step u = exec i u'

/-! ### Keypad and timer family (44_keys_timers.md, 60_exceptions.md) -/

/-- R220, R221, R222: the key skips test the key of Vx's low nibble (D15) as sampled for the step. -/
def Obligations.KeySkips : Prop :=
  (∀ s x, Completes (.skp x) s (SkipsWhen s (s.keys.getLsbD ((s.readV x).toNat % 16) = true))) ∧
  (∀ s x, Completes (.sknp x) s (SkipsWhen s (s.keys.getLsbD ((s.readV x).toNat % 16) = false)))

/-- R226: with no key pressed `Fx0A` changes nothing at all, PC included; with keys pressed Vx gets the lowest one
(D16). -/
def Obligations.KeyWaitTakesTheLowestKey : Prop :=
  (∀ s x, s.keys = 0#16 → exec (.ldVxKey x) s = .next s) ∧
  (∀ s x (k : Nat), k < 16 → s.keys.getLsbD k = true → (∀ j < k, s.keys.getLsbD j = false) →
    Completes (.ldVxKey x) s (WritesVx s x (BitVec.ofNat 8 k)))

/-- R224, R228: `Fx07` reads DT, `Fx15` writes it. -/
def Obligations.DelayTimerMoves : Prop :=
  (Encodes 0xF0FF#16 0xF007#16 (fun op => .ldVxDt (fieldX op)) ∧
    ∀ s x, Completes (.ldVxDt x) s (WritesVx s x s.dt)) ∧
  (Encodes 0xF0FF#16 0xF015#16 (fun op => .ldDtVx (fieldX op)) ∧
    ∀ s x, Completes (.ldDtVx x) s fun t => t.dt = s.readV x ∧ t.pc = s.pc + 2#16 ∧ Unchanged [.dt] s t)

/-- R230, R266: `Fx18` writes ST and emits the tone event of the edge, a stop too (D27). -/
def Obligations.SoundTimerWriteSignalsTheEdge : Prop :=
  ∀ s x, Completes (.ldStVx x) s fun t => t.st = s.readV x ∧ t.pc = s.pc + 2#16 ∧ Unchanged [.st, .tones] s t ∧
    (s.st = 0#8 → s.readV x ≠ 0#8 → t.events = .start :: s.events) ∧
    (s.st ≠ 0#8 → s.readV x = 0#8 → t.events = .stop :: s.events) ∧
    ((s.st = 0#8 ↔ s.readV x = 0#8) → t.events = s.events)

/-- R263, R264: `Tick` counts each timer down by 1 while above 0, emits the tone event of the edge, and changes nothing
else; a timer at v reaches 0 after exactly v ticks. -/
def Obligations.TickCountsTheTimersDown : Prop :=
  (∀ (s : State) (rest : List HostOp), s.schedule = .tick :: rest → ∃ t, step s = .next t ∧
    t.dt.toNat = s.dt.toNat - 1 ∧ t.st.toNat = s.st.toNat - 1 ∧ t.pc = s.pc ∧
    t.events = (if s.st = 1#8 then [ToneEvent.stop] else []) ++ s.events ∧
    Unchanged [.dt, .st, .tones] { s with schedule := rest } t) ∧
  (∀ (s : State) (n : Nat), (State.tick^[n] s).dt.toNat = s.dt.toNat - n ∧
    (State.tick^[n] s).st.toNat = s.st.toNat - n)

/-! ### Reset (70_reset_and_hazards.md) -/

/-- R39: every piece of state after reset that the spec gives a value (D3, D13, D14, D19 and D27 are the spec's
decisions); memory holds GLYPH_TABLE, which the statement names, and zero after it. That the tone events are a list in
State is the model's (log 7). -/
def Obligations.ResetState : Prop :=
  (∀ r, State.reset.readV r = 0#8) ∧ State.reset.i = 0#16 ∧ State.reset.pc = 0x200#16 ∧ State.reset.sp = 0 ∧
  (∀ j, State.reset.stack.get j = 0#16) ∧ State.reset.dt = 0#8 ∧ State.reset.st = 0#8 ∧
  (∀ px py, State.reset.fb.pixel px py = false) ∧ State.reset.fault = none ∧ State.reset.keys = 0#16 ∧
  State.reset.events = [] ∧ Config.glyphTable.length = 80 ∧
  (∀ a (h : a < Config.glyphTable.length), State.reset.mem.read a = Config.glyphTable[a]) ∧
  ∀ a, 80 ≤ a → State.reset.mem.read a = 0#8

/-- R290, R291, R294: `Reset` of an image that fits copies byte k to 0x200 + k, leaves every other byte at its reset
contents and every other piece of state as after reset; a longer image is refused by ImageTooLarge with its length. D3,
D13, D14, D27 and D30 are the spec's decisions. The model's own: that the state after reset is `State.reset` (log 10), with
its RND latch (log 5) and its empty list of tone events (log 7), and that the schedule (log 4) and the count of free bytes
(log 6) go on. -/
def Obligations.ResetLoadsTheImage : Prop :=
  ∀ (s : State) (image : List Byte) (rest : List HostOp), s.schedule = .reset image :: rest →
    (image.length ≤ 3584 → ∃ t, step s = .next t ∧
      (∀ k (h : k < image.length), t.mem.read (0x200 + k) = image[k]) ∧
      (∀ a, a < 0x200 ∨ 0x200 + image.length ≤ a → t.mem.read a = State.reset.mem.read a) ∧
      t = { State.reset with mem := t.mem, schedule := rest, freeCount := s.freeCount }) ∧
    (3584 < image.length → step s = .fault (.imageTooLarge image.length))

/-- The host's interface: a table row's word placed by `withFetchWord` is what the next step runs, from every state
(log 11). -/
def Obligations.PlacedWordRunsNext : Prop :=
  ∀ (s : State) (w : Nat) (i : Instr), decodeTableWord 16 w = some i → ∃ s',
    SamplesTo (s.withFetchWord 16 w) s' ∧ step (s.withFetchWord 16 w) = exec i s'
end

