-- ==== Sys2Proof/Laws/Decode.lean ====
section
/-! SUPPORT. The laws of fields and packed words: reading the fields of a packed word gives what was packed, packing
the fields of a word gives the word, and a masked comparison says what the selected fields are. -/

namespace Sys2Proof

/-! ### Fields of a packed word (R71, R72) -/

@[simp] theorem fieldOp4_packNNN (o : BitVec 4) (nnn : Addr) : fieldOp4 (packNNN o nnn) = o :=
  BitVec.extractLsb'_append_eq_left

@[simp] theorem fieldNNN_packNNN (o : BitVec 4) (nnn : Addr) : fieldNNN (packNNN o nnn) = nnn :=
  BitVec.extractLsb'_append_eq_right

@[simp] theorem fieldOp4_packXKK (o : BitVec 4) (x : Nibble) (kk : Byte) : fieldOp4 (packXKK o x kk) = o :=
  fieldOp4_packNNN o _

@[simp] theorem fieldKK_packXKK (o : BitVec 4) (x : Nibble) (kk : Byte) : fieldKK (packXKK o x kk) = kk :=
  (BitVec.extractLsb'_append_eq_of_add_le (by decide)).trans BitVec.extractLsb'_append_eq_right

@[simp] theorem fieldX_packXKK (o : BitVec 4) (x : Nibble) (kk : Byte) : fieldX (packXKK o x kk) = x :=
  congrArg BitVec.toFin
    ((BitVec.extractLsb'_append_eq_of_add_le (by decide)).trans BitVec.extractLsb'_append_eq_left)

@[simp] theorem fieldOp4_packXYN (o : BitVec 4) (x y : Nibble) (n : BitVec 4) : fieldOp4 (packXYN o x y n) = o :=
  fieldOp4_packXKK o x _

@[simp] theorem fieldX_packXYN (o : BitVec 4) (x y : Nibble) (n : BitVec 4) : fieldX (packXYN o x y n) = x :=
  fieldX_packXKK o x _

theorem fieldKK_packXYN (o : BitVec 4) (x y : Nibble) (n : BitVec 4) :
    fieldKK (packXYN o x y n) = BitVec.ofFin (w := 4) y ++ n :=
  fieldKK_packXKK o x _

/-- The `y` field is the high nibble of `kk` (R71). -/
theorem fieldY_eq_kk (op : Word) : fieldY op = ((fieldKK op).extractLsb' 4 4).toFin := by
  apply congrArg BitVec.toFin
  ext i hi
  simp [fieldKK]

/-- The `n` field is the low nibble of `kk` (R71). -/
theorem fieldN_eq_kk (op : Word) : fieldN op = (fieldKK op).extractLsb' 0 4 := by
  ext i hi
  simp [fieldN, fieldKK]

@[simp] theorem fieldY_packXYN (o : BitVec 4) (x y : Nibble) (n : BitVec 4) : fieldY (packXYN o x y n) = y := by
  rw [fieldY_eq_kk, fieldKK_packXYN, BitVec.extractLsb'_append_eq_left]

@[simp] theorem fieldN_packXYN (o : BitVec 4) (x y : Nibble) (n : BitVec 4) : fieldN (packXYN o x y n) = n := by
  rw [fieldN_eq_kk, fieldKK_packXYN, BitVec.extractLsb'_append_eq_right]

/-! ### Packing a word's fields -/

theorem packNNN_fields (op : Word) : packNNN (fieldOp4 op) (fieldNNN op) = op := by
  have h : fieldOp4 op ++ fieldNNN op = op.extractLsb' 0 (4 + 12) :=
    BitVec.extractLsb'_append_extractLsb'_eq_extractLsb' rfl
  simpa [packNNN] using h

theorem packXKK_fields (op : Word) : packXKK (fieldOp4 op) (fieldX op) (fieldKK op) = op := by
  have h : op.extractLsb' 8 4 ++ fieldKK op = fieldNNN op :=
    BitVec.extractLsb'_append_extractLsb'_eq_extractLsb' rfl
  exact (congrArg (packNNN _) h).trans (packNNN_fields op)

theorem packXYN_fields (op : Word) : packXYN (fieldOp4 op) (fieldX op) (fieldY op) (fieldN op) = op := by
  have h : op.extractLsb' 4 4 ++ fieldN op = fieldKK op :=
    BitVec.extractLsb'_append_extractLsb'_eq_extractLsb' rfl
  exact (congrArg (packXKK _ _) h).trans (packXKK_fields op)

/-! ### Masked comparison (R75) -/

theorem op4_of_masked {op mask p : Word} (h : op &&& mask = p) : fieldOp4 op &&& fieldOp4 mask = fieldOp4 p := by
  simpa [fieldOp4, BitVec.extractLsb'_and] using congrArg fieldOp4 h

theorem kk_of_masked {op mask p : Word} (h : op &&& mask = p) : fieldKK op &&& fieldKK mask = fieldKK p := by
  simpa [fieldKK, BitVec.extractLsb'_and] using congrArg fieldKK h

theorem n_of_masked {op mask p : Word} (h : op &&& mask = p) : fieldN op &&& fieldN mask = fieldN p := by
  simpa [fieldN, BitVec.extractLsb'_and] using congrArg fieldN h

/-- A mask F000 fixes the leading nibble. -/
theorem masked_F000 (op : Word) (o : BitVec 4) : op &&& 0xF000#16 = packNNN o 0#12 ↔ fieldOp4 op = o := by
  have hm : (0xF000#16 : Word) = 0xF#4 ++ 0#12 := by decide
  constructor
  · intro h
    have := op4_of_masked h
    rw [fieldOp4_packNNN, show fieldOp4 0xF000#16 = BitVec.allOnes 4 by decide, BitVec.and_allOnes] at this
    exact this
  · rintro rfl
    conv_lhs => rw [← packNNN_fields op]
    rw [packNNN, packNNN, hm, BitVec.and_append, show (0xF#4 : BitVec 4) = BitVec.allOnes 4 by decide,
      BitVec.and_allOnes, BitVec.and_zero]

/-- A mask F0FF fixes the leading nibble and `kk`. -/
theorem masked_F0FF (op : Word) (o : BitVec 4) (kk : Byte) :
    op &&& 0xF0FF#16 = packXKK o 0 kk ↔ fieldOp4 op = o ∧ fieldKK op = kk := by
  have hm : (0xF0FF#16 : Word) = 0xF#4 ++ (0x0#4 ++ 0xFF#8) := by decide
  constructor
  · intro h
    have h1 := op4_of_masked h
    have h2 := kk_of_masked h
    rw [fieldOp4_packXKK, show fieldOp4 0xF0FF#16 = BitVec.allOnes 4 by decide, BitVec.and_allOnes] at h1
    rw [fieldKK_packXKK, show fieldKK 0xF0FF#16 = BitVec.allOnes 8 by decide, BitVec.and_allOnes] at h2
    exact ⟨h1, h2⟩
  · rintro ⟨rfl, rfl⟩
    conv_lhs => rw [← packXKK_fields op]
    rw [packXKK, packXKK, packNNN, packNNN, hm, BitVec.and_append, BitVec.and_append,
      show (0xF#4 : BitVec 4) = BitVec.allOnes 4 by decide, show (0xFF#8 : BitVec 8) = BitVec.allOnes 8 by decide,
      BitVec.and_allOnes, BitVec.and_allOnes, BitVec.and_zero]
    rfl

/-- A mask F00F fixes the leading nibble and `n`. -/
theorem masked_F00F (op : Word) (o n : BitVec 4) :
    op &&& 0xF00F#16 = packXYN o 0 0 n ↔ fieldOp4 op = o ∧ fieldN op = n := by
  have hm : (0xF00F#16 : Word) = 0xF#4 ++ (0x0#4 ++ (0x0#4 ++ 0xF#4)) := by decide
  constructor
  · intro h
    have h1 := op4_of_masked h
    have h2 := n_of_masked h
    rw [fieldOp4_packXYN, show fieldOp4 0xF00F#16 = BitVec.allOnes 4 by decide, BitVec.and_allOnes] at h1
    rw [fieldN_packXYN, show fieldN 0xF00F#16 = BitVec.allOnes 4 by decide, BitVec.and_allOnes] at h2
    exact ⟨h1, h2⟩
  · rintro ⟨rfl, rfl⟩
    conv_lhs => rw [← packXYN_fields op]
    rw [packXYN, packXYN, packXKK, packXKK, packNNN, packNNN, hm, BitVec.and_append, BitVec.and_append,
      BitVec.and_append, show (0xF#4 : BitVec 4) = BitVec.allOnes 4 by decide, BitVec.and_allOnes,
      BitVec.and_allOnes, BitVec.and_zero, BitVec.and_zero]
    rfl

/-! ### Bytes of a word (R54, R70) -/

@[simp] theorem wordOfBytes_bytes (op : Word) : wordOfBytes (highByte op) (lowByte op) = op := by
  have h : highByte op ++ lowByte op = op.extractLsb' 0 (8 + 8) :=
    BitVec.extractLsb'_append_extractLsb'_eq_extractLsb' rfl
  simpa [wordOfBytes] using h

theorem wordOfBytes_toNat (hi lo : Byte) : (wordOfBytes hi lo).toNat = 256 * hi.toNat + lo.toNat := by
  have := lo.isLt
  simp only [wordOfBytes, BitVec.toNat_append]
  rw [← Nat.shiftLeft_add_eq_or_of_lt this, Nat.shiftLeft_eq]
  omega

/-- Decoding two bytes is decoding their word (R54). -/
theorem decodeBytes_pair (hi lo : Byte) (rest : List Byte) :
    decodeBytes (hi :: lo :: rest) =
      match decode (wordOfBytes hi lo) with
      | some i => .ok (i, rest)
      | none => .error (.illegalWord (wordOfBytes hi lo)) := rfl

theorem decodeTableWord_eq (nbits w : Nat) : decodeTableWord nbits w = decode (tableWord nbits w) := by
  simp only [decodeTableWord, decodeBytes, wordOfBytes_bytes]
  cases decode (tableWord nbits w) <;> rfl

end Sys2Proof
end

