-- ==== Sys2Proof/Laws/State.lean ====
section
/-! SUPPORT. One lemma per field per update, and the laws of the register accessors. -/

namespace Sys2Proof.Machine

variable (s : State)

/-! ### writeV -/

@[simp] theorem State.writeV_v (x : Nibble) (b : Byte) : (s.writeV x b).v = s.v.set x b := rfl
@[simp] theorem State.writeV_i (x : Nibble) (b : Byte) : (s.writeV x b).i = s.i := rfl
@[simp] theorem State.writeV_pc (x : Nibble) (b : Byte) : (s.writeV x b).pc = s.pc := rfl
@[simp] theorem State.writeV_sp (x : Nibble) (b : Byte) : (s.writeV x b).sp = s.sp := rfl
@[simp] theorem State.writeV_stack (x : Nibble) (b : Byte) : (s.writeV x b).stack = s.stack := rfl
@[simp] theorem State.writeV_dt (x : Nibble) (b : Byte) : (s.writeV x b).dt = s.dt := rfl
@[simp] theorem State.writeV_st (x : Nibble) (b : Byte) : (s.writeV x b).st = s.st := rfl
@[simp] theorem State.writeV_fb (x : Nibble) (b : Byte) : (s.writeV x b).fb = s.fb := rfl
@[simp] theorem State.writeV_mem (x : Nibble) (b : Byte) : (s.writeV x b).mem = s.mem := rfl
@[simp] theorem State.writeV_fault (x : Nibble) (b : Byte) : (s.writeV x b).fault = s.fault := rfl
@[simp] theorem State.writeV_keys (x : Nibble) (b : Byte) : (s.writeV x b).keys = s.keys := rfl
@[simp] theorem State.writeV_rnd (x : Nibble) (b : Byte) : (s.writeV x b).rnd = s.rnd := rfl
@[simp] theorem State.writeV_events (x : Nibble) (b : Byte) : (s.writeV x b).events = s.events := rfl
@[simp] theorem State.writeV_schedule (x : Nibble) (b : Byte) : (s.writeV x b).schedule = s.schedule := rfl
@[simp] theorem State.writeV_freeCount (x : Nibble) (b : Byte) : (s.writeV x b).freeCount = s.freeCount := rfl

/-! ### setI -/

@[simp] theorem State.setI_v (w : Word) : (s.setI w).v = s.v := rfl
@[simp] theorem State.setI_i (w : Word) : (s.setI w).i = w := rfl
@[simp] theorem State.setI_pc (w : Word) : (s.setI w).pc = s.pc := rfl
@[simp] theorem State.setI_sp (w : Word) : (s.setI w).sp = s.sp := rfl
@[simp] theorem State.setI_stack (w : Word) : (s.setI w).stack = s.stack := rfl
@[simp] theorem State.setI_dt (w : Word) : (s.setI w).dt = s.dt := rfl
@[simp] theorem State.setI_st (w : Word) : (s.setI w).st = s.st := rfl
@[simp] theorem State.setI_fb (w : Word) : (s.setI w).fb = s.fb := rfl
@[simp] theorem State.setI_mem (w : Word) : (s.setI w).mem = s.mem := rfl
@[simp] theorem State.setI_fault (w : Word) : (s.setI w).fault = s.fault := rfl
@[simp] theorem State.setI_keys (w : Word) : (s.setI w).keys = s.keys := rfl
@[simp] theorem State.setI_rnd (w : Word) : (s.setI w).rnd = s.rnd := rfl
@[simp] theorem State.setI_events (w : Word) : (s.setI w).events = s.events := rfl
@[simp] theorem State.setI_schedule (w : Word) : (s.setI w).schedule = s.schedule := rfl
@[simp] theorem State.setI_freeCount (w : Word) : (s.setI w).freeCount = s.freeCount := rfl

/-! ### setDt -/

@[simp] theorem State.setDt_v (b : Byte) : (s.setDt b).v = s.v := rfl
@[simp] theorem State.setDt_i (b : Byte) : (s.setDt b).i = s.i := rfl
@[simp] theorem State.setDt_pc (b : Byte) : (s.setDt b).pc = s.pc := rfl
@[simp] theorem State.setDt_sp (b : Byte) : (s.setDt b).sp = s.sp := rfl
@[simp] theorem State.setDt_stack (b : Byte) : (s.setDt b).stack = s.stack := rfl
@[simp] theorem State.setDt_dt (b : Byte) : (s.setDt b).dt = b := rfl
@[simp] theorem State.setDt_st (b : Byte) : (s.setDt b).st = s.st := rfl
@[simp] theorem State.setDt_fb (b : Byte) : (s.setDt b).fb = s.fb := rfl
@[simp] theorem State.setDt_mem (b : Byte) : (s.setDt b).mem = s.mem := rfl
@[simp] theorem State.setDt_fault (b : Byte) : (s.setDt b).fault = s.fault := rfl
@[simp] theorem State.setDt_keys (b : Byte) : (s.setDt b).keys = s.keys := rfl
@[simp] theorem State.setDt_rnd (b : Byte) : (s.setDt b).rnd = s.rnd := rfl
@[simp] theorem State.setDt_events (b : Byte) : (s.setDt b).events = s.events := rfl
@[simp] theorem State.setDt_schedule (b : Byte) : (s.setDt b).schedule = s.schedule := rfl
@[simp] theorem State.setDt_freeCount (b : Byte) : (s.setDt b).freeCount = s.freeCount := rfl

/-! ### setSt -/

@[simp] theorem State.setSt_v (b : Byte) : (s.setSt b).v = s.v := rfl
@[simp] theorem State.setSt_i (b : Byte) : (s.setSt b).i = s.i := rfl
@[simp] theorem State.setSt_pc (b : Byte) : (s.setSt b).pc = s.pc := rfl
@[simp] theorem State.setSt_sp (b : Byte) : (s.setSt b).sp = s.sp := rfl
@[simp] theorem State.setSt_stack (b : Byte) : (s.setSt b).stack = s.stack := rfl
@[simp] theorem State.setSt_dt (b : Byte) : (s.setSt b).dt = s.dt := rfl
@[simp] theorem State.setSt_st (b : Byte) : (s.setSt b).st = b := rfl
@[simp] theorem State.setSt_fb (b : Byte) : (s.setSt b).fb = s.fb := rfl
@[simp] theorem State.setSt_mem (b : Byte) : (s.setSt b).mem = s.mem := rfl
@[simp] theorem State.setSt_fault (b : Byte) : (s.setSt b).fault = s.fault := rfl
@[simp] theorem State.setSt_keys (b : Byte) : (s.setSt b).keys = s.keys := rfl
@[simp] theorem State.setSt_rnd (b : Byte) : (s.setSt b).rnd = s.rnd := rfl
@[simp] theorem State.setSt_events (b : Byte) : (s.setSt b).events = toneEdge s.st b ++ s.events := rfl
@[simp] theorem State.setSt_schedule (b : Byte) : (s.setSt b).schedule = s.schedule := rfl
@[simp] theorem State.setSt_freeCount (b : Byte) : (s.setSt b).freeCount = s.freeCount := rfl

/-! ### advance -/

@[simp] theorem State.advance_v : (s.advance).v = s.v := rfl
@[simp] theorem State.advance_i : (s.advance).i = s.i := rfl
@[simp] theorem State.advance_pc : (s.advance).pc = s.pc + 2#16 := rfl
@[simp] theorem State.advance_sp : (s.advance).sp = s.sp := rfl
@[simp] theorem State.advance_stack : (s.advance).stack = s.stack := rfl
@[simp] theorem State.advance_dt : (s.advance).dt = s.dt := rfl
@[simp] theorem State.advance_st : (s.advance).st = s.st := rfl
@[simp] theorem State.advance_fb : (s.advance).fb = s.fb := rfl
@[simp] theorem State.advance_mem : (s.advance).mem = s.mem := rfl
@[simp] theorem State.advance_fault : (s.advance).fault = s.fault := rfl
@[simp] theorem State.advance_keys : (s.advance).keys = s.keys := rfl
@[simp] theorem State.advance_rnd : (s.advance).rnd = s.rnd := rfl
@[simp] theorem State.advance_events : (s.advance).events = s.events := rfl
@[simp] theorem State.advance_schedule : (s.advance).schedule = s.schedule := rfl
@[simp] theorem State.advance_freeCount : (s.advance).freeCount = s.freeCount := rfl

/-! ### jump -/

@[simp] theorem State.jump_v (w : Word) : (s.jump w).v = s.v := rfl
@[simp] theorem State.jump_i (w : Word) : (s.jump w).i = s.i := rfl
@[simp] theorem State.jump_pc (w : Word) : (s.jump w).pc = w := rfl
@[simp] theorem State.jump_sp (w : Word) : (s.jump w).sp = s.sp := rfl
@[simp] theorem State.jump_stack (w : Word) : (s.jump w).stack = s.stack := rfl
@[simp] theorem State.jump_dt (w : Word) : (s.jump w).dt = s.dt := rfl
@[simp] theorem State.jump_st (w : Word) : (s.jump w).st = s.st := rfl
@[simp] theorem State.jump_fb (w : Word) : (s.jump w).fb = s.fb := rfl
@[simp] theorem State.jump_mem (w : Word) : (s.jump w).mem = s.mem := rfl
@[simp] theorem State.jump_fault (w : Word) : (s.jump w).fault = s.fault := rfl
@[simp] theorem State.jump_keys (w : Word) : (s.jump w).keys = s.keys := rfl
@[simp] theorem State.jump_rnd (w : Word) : (s.jump w).rnd = s.rnd := rfl
@[simp] theorem State.jump_events (w : Word) : (s.jump w).events = s.events := rfl
@[simp] theorem State.jump_schedule (w : Word) : (s.jump w).schedule = s.schedule := rfl
@[simp] theorem State.jump_freeCount (w : Word) : (s.jump w).freeCount = s.freeCount := rfl

/-! ### raise -/

@[simp] theorem State.raise_v (k : FaultKind) (o : Option Word) : (s.raise k o).v = s.v := rfl
@[simp] theorem State.raise_i (k : FaultKind) (o : Option Word) : (s.raise k o).i = s.i := rfl
@[simp] theorem State.raise_pc (k : FaultKind) (o : Option Word) : (s.raise k o).pc = s.pc := rfl
@[simp] theorem State.raise_sp (k : FaultKind) (o : Option Word) : (s.raise k o).sp = s.sp := rfl
@[simp] theorem State.raise_stack (k : FaultKind) (o : Option Word) : (s.raise k o).stack = s.stack := rfl
@[simp] theorem State.raise_dt (k : FaultKind) (o : Option Word) : (s.raise k o).dt = s.dt := rfl
@[simp] theorem State.raise_st (k : FaultKind) (o : Option Word) : (s.raise k o).st = s.st := rfl
@[simp] theorem State.raise_fb (k : FaultKind) (o : Option Word) : (s.raise k o).fb = s.fb := rfl
@[simp] theorem State.raise_mem (k : FaultKind) (o : Option Word) : (s.raise k o).mem = s.mem := rfl
@[simp] theorem State.raise_fault (k : FaultKind) (o : Option Word) : (s.raise k o).fault = some { kind := k, pc := s.pc, opcode := o } := rfl
@[simp] theorem State.raise_keys (k : FaultKind) (o : Option Word) : (s.raise k o).keys = s.keys := rfl
@[simp] theorem State.raise_rnd (k : FaultKind) (o : Option Word) : (s.raise k o).rnd = s.rnd := rfl
@[simp] theorem State.raise_events (k : FaultKind) (o : Option Word) : (s.raise k o).events = s.events := rfl
@[simp] theorem State.raise_schedule (k : FaultKind) (o : Option Word) : (s.raise k o).schedule = s.schedule := rfl
@[simp] theorem State.raise_freeCount (k : FaultKind) (o : Option Word) : (s.raise k o).freeCount = s.freeCount := rfl

/-! ### skipFault -/

@[simp] theorem State.skipFault_v : (s.skipFault).v = s.v := rfl
@[simp] theorem State.skipFault_i : (s.skipFault).i = s.i := rfl
@[simp] theorem State.skipFault_pc : (s.skipFault).pc = s.pc + 2#16 := rfl
@[simp] theorem State.skipFault_sp : (s.skipFault).sp = s.sp := rfl
@[simp] theorem State.skipFault_stack : (s.skipFault).stack = s.stack := rfl
@[simp] theorem State.skipFault_dt : (s.skipFault).dt = s.dt := rfl
@[simp] theorem State.skipFault_st : (s.skipFault).st = s.st := rfl
@[simp] theorem State.skipFault_fb : (s.skipFault).fb = s.fb := rfl
@[simp] theorem State.skipFault_mem : (s.skipFault).mem = s.mem := rfl
@[simp] theorem State.skipFault_fault : (s.skipFault).fault = none := rfl
@[simp] theorem State.skipFault_keys : (s.skipFault).keys = s.keys := rfl
@[simp] theorem State.skipFault_rnd : (s.skipFault).rnd = s.rnd := rfl
@[simp] theorem State.skipFault_events : (s.skipFault).events = s.events := rfl
@[simp] theorem State.skipFault_schedule : (s.skipFault).schedule = s.schedule := rfl
@[simp] theorem State.skipFault_freeCount : (s.skipFault).freeCount = s.freeCount := rfl

/-! ### sample -/

@[simp] theorem State.sample_v (k : Word) (r : RndInput) : (s.sample k r).v = s.v := rfl
@[simp] theorem State.sample_i (k : Word) (r : RndInput) : (s.sample k r).i = s.i := rfl
@[simp] theorem State.sample_pc (k : Word) (r : RndInput) : (s.sample k r).pc = s.pc := rfl
@[simp] theorem State.sample_sp (k : Word) (r : RndInput) : (s.sample k r).sp = s.sp := rfl
@[simp] theorem State.sample_stack (k : Word) (r : RndInput) : (s.sample k r).stack = s.stack := rfl
@[simp] theorem State.sample_dt (k : Word) (r : RndInput) : (s.sample k r).dt = s.dt := rfl
@[simp] theorem State.sample_st (k : Word) (r : RndInput) : (s.sample k r).st = s.st := rfl
@[simp] theorem State.sample_fb (k : Word) (r : RndInput) : (s.sample k r).fb = s.fb := rfl
@[simp] theorem State.sample_mem (k : Word) (r : RndInput) : (s.sample k r).mem = s.mem := rfl
@[simp] theorem State.sample_fault (k : Word) (r : RndInput) : (s.sample k r).fault = s.fault := rfl
@[simp] theorem State.sample_keys (k : Word) (r : RndInput) : (s.sample k r).keys = k := rfl
@[simp] theorem State.sample_rnd (k : Word) (r : RndInput) : (s.sample k r).rnd = r := rfl
@[simp] theorem State.sample_events (k : Word) (r : RndInput) : (s.sample k r).events = s.events := rfl
@[simp] theorem State.sample_schedule (k : Word) (r : RndInput) : (s.sample k r).schedule = s.schedule := rfl
@[simp] theorem State.sample_freeCount (k : Word) (r : RndInput) : (s.sample k r).freeCount = s.freeCount := rfl

/-! ### tick -/

@[simp] theorem State.tick_v : (s.tick).v = s.v := rfl
@[simp] theorem State.tick_i : (s.tick).i = s.i := rfl
@[simp] theorem State.tick_pc : (s.tick).pc = s.pc := rfl
@[simp] theorem State.tick_sp : (s.tick).sp = s.sp := rfl
@[simp] theorem State.tick_stack : (s.tick).stack = s.stack := rfl
@[simp] theorem State.tick_dt : (s.tick).dt = countDown s.dt := rfl
@[simp] theorem State.tick_st : (s.tick).st = countDown s.st := rfl
@[simp] theorem State.tick_fb : (s.tick).fb = s.fb := rfl
@[simp] theorem State.tick_mem : (s.tick).mem = s.mem := rfl
@[simp] theorem State.tick_fault : (s.tick).fault = s.fault := rfl
@[simp] theorem State.tick_keys : (s.tick).keys = s.keys := rfl
@[simp] theorem State.tick_rnd : (s.tick).rnd = s.rnd := rfl
@[simp] theorem State.tick_events : (s.tick).events = toneEdge s.st (countDown s.st) ++ s.events := rfl
@[simp] theorem State.tick_schedule : (s.tick).schedule = s.schedule := rfl
@[simp] theorem State.tick_freeCount : (s.tick).freeCount = s.freeCount := rfl

/-! ### writeVFlag -/

@[simp] theorem State.writeVFlag_v (x : Nibble) (b f : Byte) : (s.writeVFlag x b f).v = (s.v.set x b).set vf f := rfl
@[simp] theorem State.writeVFlag_i (x : Nibble) (b f : Byte) : (s.writeVFlag x b f).i = s.i := rfl
@[simp] theorem State.writeVFlag_pc (x : Nibble) (b f : Byte) : (s.writeVFlag x b f).pc = s.pc := rfl
@[simp] theorem State.writeVFlag_sp (x : Nibble) (b f : Byte) : (s.writeVFlag x b f).sp = s.sp := rfl
@[simp] theorem State.writeVFlag_stack (x : Nibble) (b f : Byte) : (s.writeVFlag x b f).stack = s.stack := rfl
@[simp] theorem State.writeVFlag_dt (x : Nibble) (b f : Byte) : (s.writeVFlag x b f).dt = s.dt := rfl
@[simp] theorem State.writeVFlag_st (x : Nibble) (b f : Byte) : (s.writeVFlag x b f).st = s.st := rfl
@[simp] theorem State.writeVFlag_fb (x : Nibble) (b f : Byte) : (s.writeVFlag x b f).fb = s.fb := rfl
@[simp] theorem State.writeVFlag_mem (x : Nibble) (b f : Byte) : (s.writeVFlag x b f).mem = s.mem := rfl
@[simp] theorem State.writeVFlag_fault (x : Nibble) (b f : Byte) : (s.writeVFlag x b f).fault = s.fault := rfl
@[simp] theorem State.writeVFlag_keys (x : Nibble) (b f : Byte) : (s.writeVFlag x b f).keys = s.keys := rfl
@[simp] theorem State.writeVFlag_rnd (x : Nibble) (b f : Byte) : (s.writeVFlag x b f).rnd = s.rnd := rfl
@[simp] theorem State.writeVFlag_events (x : Nibble) (b f : Byte) : (s.writeVFlag x b f).events = s.events := rfl
@[simp] theorem State.writeVFlag_schedule (x : Nibble) (b f : Byte) : (s.writeVFlag x b f).schedule = s.schedule := rfl
@[simp] theorem State.writeVFlag_freeCount (x : Nibble) (b f : Byte) : (s.writeVFlag x b f).freeCount = s.freeCount := rfl

/-! ### loadBlock -/

@[simp] theorem State.loadBlock_i (x : Nibble) : (s.loadBlock x).i = s.i := rfl
@[simp] theorem State.loadBlock_pc (x : Nibble) : (s.loadBlock x).pc = s.pc := rfl
@[simp] theorem State.loadBlock_sp (x : Nibble) : (s.loadBlock x).sp = s.sp := rfl
@[simp] theorem State.loadBlock_stack (x : Nibble) : (s.loadBlock x).stack = s.stack := rfl
@[simp] theorem State.loadBlock_dt (x : Nibble) : (s.loadBlock x).dt = s.dt := rfl
@[simp] theorem State.loadBlock_st (x : Nibble) : (s.loadBlock x).st = s.st := rfl
@[simp] theorem State.loadBlock_fb (x : Nibble) : (s.loadBlock x).fb = s.fb := rfl
@[simp] theorem State.loadBlock_mem (x : Nibble) : (s.loadBlock x).mem = s.mem := rfl
@[simp] theorem State.loadBlock_fault (x : Nibble) : (s.loadBlock x).fault = s.fault := rfl
@[simp] theorem State.loadBlock_keys (x : Nibble) : (s.loadBlock x).keys = s.keys := rfl
@[simp] theorem State.loadBlock_rnd (x : Nibble) : (s.loadBlock x).rnd = s.rnd := rfl
@[simp] theorem State.loadBlock_events (x : Nibble) : (s.loadBlock x).events = s.events := rfl
@[simp] theorem State.loadBlock_schedule (x : Nibble) : (s.loadBlock x).schedule = s.schedule := rfl
@[simp] theorem State.loadBlock_freeCount (x : Nibble) : (s.loadBlock x).freeCount = s.freeCount := rfl

/-! ### skipIf -/

@[simp] theorem State.skipIf_v (c : Bool) : (s.skipIf c).v = s.v := rfl
@[simp] theorem State.skipIf_i (c : Bool) : (s.skipIf c).i = s.i := rfl
@[simp] theorem State.skipIf_pc (c : Bool) : (s.skipIf c).pc = if c then s.pc + 4#16 else s.pc + 2#16 := rfl
@[simp] theorem State.skipIf_sp (c : Bool) : (s.skipIf c).sp = s.sp := rfl
@[simp] theorem State.skipIf_stack (c : Bool) : (s.skipIf c).stack = s.stack := rfl
@[simp] theorem State.skipIf_dt (c : Bool) : (s.skipIf c).dt = s.dt := rfl
@[simp] theorem State.skipIf_st (c : Bool) : (s.skipIf c).st = s.st := rfl
@[simp] theorem State.skipIf_fb (c : Bool) : (s.skipIf c).fb = s.fb := rfl
@[simp] theorem State.skipIf_mem (c : Bool) : (s.skipIf c).mem = s.mem := rfl
@[simp] theorem State.skipIf_fault (c : Bool) : (s.skipIf c).fault = s.fault := rfl
@[simp] theorem State.skipIf_keys (c : Bool) : (s.skipIf c).keys = s.keys := rfl
@[simp] theorem State.skipIf_rnd (c : Bool) : (s.skipIf c).rnd = s.rnd := rfl
@[simp] theorem State.skipIf_events (c : Bool) : (s.skipIf c).events = s.events := rfl
@[simp] theorem State.skipIf_schedule (c : Bool) : (s.skipIf c).schedule = s.schedule := rfl
@[simp] theorem State.skipIf_freeCount (c : Bool) : (s.skipIf c).freeCount = s.freeCount := rfl

/-! ### Registers -/

@[simp] theorem State.readV_writeV (x r : Nibble) (b : Byte) :
    (s.writeV x b).readV r = if r = x then b else s.readV r := by
  simp only [State.readV, State.writeV, Vector.get_eq_getElem, Vector.getElem_set, Fin.ext_iff, eq_comm]

@[simp] theorem State.readV_writeVFlag (x r : Nibble) (b f : Byte) :
    (s.writeVFlag x b f).readV r = if r = vf then f else if r = x then b else s.readV r := by
  simp [State.writeVFlag]

@[simp] theorem State.readV_loadBlock (x r : Nibble) :
    (s.loadBlock x).readV r = if r ≤ x then s.mem.readEA s.i r else s.readV r := by
  simp [State.readV, State.loadBlock, Vector.get_eq_getElem]

/-- Reading a register looks only at the register file. -/
theorem State.readV_congr {s t : State} (h : t.v = s.v) (r : Nibble) : t.readV r = s.readV r := by
  simp [State.readV, h]

@[simp] theorem State.readV_advance (r : Nibble) : s.advance.readV r = s.readV r := rfl
@[simp] theorem State.readV_jump (w : Word) (r : Nibble) : (s.jump w).readV r = s.readV r := rfl
@[simp] theorem State.readV_setI (w : Word) (r : Nibble) : (s.setI w).readV r = s.readV r := rfl
@[simp] theorem State.readV_setDt (b : Byte) (r : Nibble) : (s.setDt b).readV r = s.readV r := rfl
@[simp] theorem State.readV_setSt (b : Byte) (r : Nibble) : (s.setSt b).readV r = s.readV r := rfl
@[simp] theorem State.readV_tick (r : Nibble) : s.tick.readV r = s.readV r := rfl
@[simp] theorem State.readV_sample (k : Word) (i : RndInput) (r : Nibble) : (s.sample k i).readV r = s.readV r := rfl
@[simp] theorem State.readV_raise (k : FaultKind) (o : Option Word) (r : Nibble) :
    (s.raise k o).readV r = s.readV r := rfl
@[simp] theorem State.readV_skipIf (c : Bool) (r : Nibble) : (s.skipIf c).readV r = s.readV r := rfl

/-! ### Call stack: everything push and pop can do (R27) -/

theorem State.push_eq_none (w : Word) : s.push w = none ↔ s.sp.val = 16 := by
  have := s.sp.isLt
  simp only [State.push]
  split <;> simp <;> omega

theorem State.push_eq_some {s t : State} {w : Word} (h : s.push w = some t) :
    ∃ hsp : s.sp.val < 16, t = { s with stack := s.stack.set s.sp.val w, sp := ⟨s.sp.val + 1, by omega⟩ } := by
  simp only [State.push] at h
  split at h
  · exact ⟨‹_›, (Option.some.inj h).symm⟩
  · cases h

theorem State.push_of_lt (w : Word) (h : s.sp.val < 16) :
    s.push w = some { s with stack := s.stack.set s.sp.val w, sp := ⟨s.sp.val + 1, by omega⟩ } := by
  simp [State.push, h]

theorem State.pop_eq_none : s.pop = none ↔ s.sp.val = 0 := by
  simp only [State.pop]
  split <;> simp_all

theorem State.pop_of_pos (h : 0 < s.sp.val) :
    s.pop = some (s.stack.get ⟨s.sp.val - 1, by omega⟩, { s with sp := ⟨s.sp.val - 1, by omega⟩ }) := by
  simp [State.pop, Nat.ne_of_gt h, Vector.get_eq_getElem]

/-! ### RND -/

@[simp] theorem RndInput.value_supplied (b : Byte) : (RndInput.supplied b).value = b := rfl
@[simp] theorem RndInput.value_free (k : Nat) : (RndInput.free k).value = Config.freeRnd k := rfl

/-! ### regBlock -/

theorem State.regBlock_length (x : Nibble) : (s.regBlock x).length = x.val + 1 := by simp [State.regBlock]

theorem State.regBlock_getElem (x : Nibble) (j : Nat) (h : j < (s.regBlock x).length) :
    (s.regBlock x)[j] = s.readV ⟨j, by rw [State.regBlock_length] at h; omega⟩ := by
  simp [State.regBlock, State.readV, Vector.get_eq_getElem]

end Sys2Proof.Machine
end

