-- ==== Sys2Proof/Laws/Display.lean ====
section
/-! SUPPORT. The laws of the framebuffer write port and of the sprite loop. -/

namespace Sys2Proof.Machine

@[simp] theorem Framebuffer.pixel_blank (px : Fin 64) (py : Fin 32) : Framebuffer.blank.pixel px py = false := by
  simp [Framebuffer.pixel, Framebuffer.blank, Vector.get_eq_getElem]

/-- A toggle complements one pixel and leaves every other pixel (R100). -/
@[simp] theorem Framebuffer.pixel_toggle (fb : Framebuffer) (px px' : Fin 64) (py py' : Fin 32) :
    (fb.toggle px py).pixel px' py' = if px' = px ∧ py' = py then !fb.pixel px py else fb.pixel px' py' := by
  simp only [Framebuffer.toggle, Framebuffer.pixel, Vector.get_eq_getElem, Vector.getElem_set, Fin.ext_iff]
  by_cases hy : (py : Nat) = py'
  · by_cases hx : (px : Nat) = px'
    · simp [hy, hx]
    · simp [hy, hx, Ne.symm hx]
  · simp [hy, Ne.symm hy]

/-- Two grids with the same pixels are equal (R31). -/
theorem Framebuffer.ext_pixel {fb fb' : Framebuffer} (h : ∀ px py, fb.pixel px py = fb'.pixel px py) : fb = fb' := by
  apply Vector.ext
  intro j hj
  apply Vector.ext
  intro k hk
  simpa [Framebuffer.pixel, Vector.get_eq_getElem] using h ⟨k, hk⟩ ⟨j, hj⟩

/-- The pixel a sprite bit lands on (R106). -/
def landing (cx cy r c : Nat) : Fin 64 × Fin 32 := (Fin.ofNat 64 (cx + c), Fin.ofNat 32 (cy + r))

theorem drawBit_eq (cx cy r c : Nat) (d : Framebuffer × Bool) :
    drawBit cx cy r c d = (d.1.toggle (landing cx cy r c).1 (landing cx cy r c).2,
      d.2 || d.1.pixel (landing cx cy r c).1 (landing cx cy r c).2) := rfl

/-- The pixel a set bit of row `r` lands on, of the columns below `k` (R104, R106). -/
def rowHits (cx cy r : Nat) (b : Byte) (k : Nat) (px : Fin 64) (py : Fin 32) : Prop :=
  ∃ c < k, b.getLsbD (7 - c) = true ∧ landing cx cy r c = (px, py)

/-- The loop over the first `k` columns XORs the grid with their set bits, and the collision is an on pixel under one
of them: no pixel is hit twice (R108, R110). -/
theorem drawRow_prefix (cx cy r : Nat) (b : Byte) (d : Framebuffer × Bool) (k : Nat) (hk : k ≤ 64) :
    let e := (List.range k).foldl (fun d c => if b.getLsbD (7 - c) then drawBit cx cy r c d else d) d
    (∀ px py, (e.1.pixel px py = true ↔ ¬ (d.1.pixel px py = true ↔ rowHits cx cy r b k px py))) ∧
    (e.2 = true ↔ d.2 = true ∨ ∃ px py, d.1.pixel px py = true ∧ rowHits cx cy r b k px py) := by
  induction k with
  | zero => simp [rowHits]
  | succ k ih =>
    specialize ih (by omega)
    simp only [List.range_succ, List.foldl_append, List.foldl_cons, List.foldl_nil]
    generalize (List.range k).foldl (fun d c => if b.getLsbD (7 - c) then drawBit cx cy r c d else d) d = e at ih
    obtain ⟨ih1, ih2⟩ := ih
    have hstep : ∀ px py, rowHits cx cy r b (k + 1) px py ↔
        rowHits cx cy r b k px py ∨ (b.getLsbD (7 - k) = true ∧ landing cx cy r k = (px, py)) := by
      intro px py
      constructor
      · rintro ⟨c, hc, h⟩
        rcases Nat.lt_succ_iff_lt_or_eq.mp hc with hc | rfl
        · exact .inl ⟨c, hc, h⟩
        · exact .inr h
      · rintro (⟨c, hc, h⟩ | h)
        · exact ⟨c, by omega, h⟩
        · exact ⟨k, by omega, h⟩
    have hfresh : ¬ rowHits cx cy r b k (landing cx cy r k).1 (landing cx cy r k).2 := by
      rintro ⟨c, hc, -, h⟩
      have := congrArg (fun p => p.1.val) h
      simp only [landing, Fin.val_ofNat] at this
      omega
    by_cases hb : b.getLsbD (7 - k) = true
    · simp only [hb, if_true, drawBit_eq]
      generalize landing cx cy r k = p at hstep hfresh ⊢
      obtain ⟨qx, qy⟩ := p
      simp only [hb, true_and, Prod.mk.injEq] at hstep hfresh ⊢
      have hq := ih1 qx qy
      refine ⟨fun px py => ?_, ?_⟩
      · rw [Framebuffer.pixel_toggle, hstep]
        by_cases hp : px = qx ∧ py = qy
        · obtain ⟨rfl, rfl⟩ := hp
          simp only [and_self, if_true, or_true, iff_true, Bool.not_eq_true', ← Bool.not_eq_true, hq]
          tauto
        · have hp' : ¬ (qx = px ∧ qy = py) := fun h => hp ⟨h.1.symm, h.2.symm⟩
          simp only [hp, hp', if_false, or_false, ih1]
      · simp only [Bool.or_eq_true, ih2, hstep, hq]
        constructor
        · rintro ((h | ⟨px, py, h, h'⟩) | h)
          · exact .inl h
          · exact .inr ⟨px, py, h, .inl h'⟩
          · exact .inr ⟨qx, qy, by tauto, .inr ⟨rfl, rfl⟩⟩
        · rintro (h | ⟨px, py, h, h' | ⟨rfl, rfl⟩⟩)
          · exact .inl (.inl h)
          · exact .inl (.inr ⟨px, py, h, h'⟩)
          · exact .inr (by tauto)
    · simp only [hb, if_false, Bool.false_eq_true]
      simp only [hstep, hb, false_and, or_false, Bool.false_eq_true]
      exact ⟨ih1, ih2⟩

/-- The pixels that the set bits of sprite rows `r`, `r + 1`, … land on (R104, R106). -/
def spriteHits (cx cy r : Nat) (bs : List Byte) (px : Fin 64) (py : Fin 32) : Prop :=
  ∃ j, ∃ h : j < bs.length, rowHits cx cy (r + j) bs[j] 8 px py

/-- The sprite loop in closed form, for at most 32 rows: the grid is XORed with the sprite's pixels, and the collision
is an on pixel under one of them (R104, R106, R108, R110). -/
theorem drawRows_closed (cx cy r : Nat) (bs : List Byte) (d : Framebuffer × Bool) (hlen : bs.length ≤ 32) :
    let e := drawRows cx cy r bs d
    (∀ px py, (e.1.pixel px py = true ↔ ¬ (d.1.pixel px py = true ↔ spriteHits cx cy r bs px py))) ∧
    (e.2 = true ↔ d.2 = true ∨ ∃ px py, d.1.pixel px py = true ∧ spriteHits cx cy r bs px py) := by
  induction bs generalizing r d with
  | nil => simp [drawRows, spriteHits]
  | cons b bs ih =>
    simp only [List.length_cons] at hlen
    obtain ⟨ih1, ih2⟩ := ih (r + 1) (drawRow cx cy r b d) (by omega)
    obtain ⟨h1, h2⟩ := drawRow_prefix cx cy r b d 8 (by omega)
    have hcons : ∀ px py, spriteHits cx cy r (b :: bs) px py ↔
        rowHits cx cy r b 8 px py ∨ spriteHits cx cy (r + 1) bs px py := by
      intro px py
      constructor
      · rintro ⟨j, hj, h⟩
        cases j with
        | zero => exact .inl h
        | succ j => exact .inr ⟨j, by simpa using hj, by simpa [Nat.add_assoc, Nat.add_comm 1 j] using h⟩
      · rintro (h | ⟨j, hj, h⟩)
        · exact ⟨0, by simp, h⟩
        · exact ⟨j + 1, by simpa using hj, by simpa [Nat.add_assoc, Nat.add_comm 1 j] using h⟩
    have hdisj : ∀ px py, rowHits cx cy r b 8 px py → ¬ spriteHits cx cy (r + 1) bs px py := by
      rintro px py ⟨c, -, -, h⟩ ⟨j, hj, c', -, -, h'⟩
      have := congrArg (fun p => p.2.val) (h.trans h'.symm)
      simp only [landing, Fin.val_ofNat] at this
      omega
    simp only [drawRows]
    change ∀ px py, ((drawRow cx cy r b d).1.pixel px py = true ↔ _) at h1
    change ((drawRow cx cy r b d).2 = true ↔ _) at h2
    refine ⟨fun px py => ?_, ?_⟩
    · rw [ih1, h1, hcons]
      have := hdisj px py
      tauto
    · rw [ih2, h2]
      constructor
      · rintro ((h | ⟨px, py, h, h'⟩) | ⟨px, py, h, h'⟩)
        · exact .inl h
        · exact .inr ⟨px, py, h, (hcons px py).mpr (.inl h')⟩
        · refine .inr ⟨px, py, ?_, (hcons px py).mpr (.inr h')⟩
          have hno : ¬ rowHits cx cy r b 8 px py := fun hr => hdisj px py hr h'
          have := (h1 px py).mp h
          tauto
      · rintro (h | ⟨px, py, h, h'⟩)
        · exact .inl (.inl h)
        · rcases (hcons px py).mp h' with hr | hs
          · exact .inl (.inr ⟨px, py, h, hr⟩)
          · refine .inr ⟨px, py, (h1 px py).mpr ?_, hs⟩
            have hno : ¬ rowHits cx cy r b 8 px py := fun hr => hdisj px py hr hs
            tauto

end Sys2Proof.Machine
end

