-- ==== Sys2Proof/Laws/Memory.lean ====
section
/-! SUPPORT. The laws of memory: read after write, the canonical form kept by every operation, and what the multi-byte
stores do. -/

namespace Sys2Proof.Machine

theorem ea_toNat (i : Word) (k : Nat) : (ea i k).toNat = (i.toNat + k) % 4096 := by simp [ea]

theorem Memory.readEA_eq (m : Memory) (i : Word) (k : Nat) : m.readEA i k = m.read ((i.toNat + k) % 4096) := by
  simp [Memory.readEA, ea_toNat]

/-! ### Read after write (R57) -/

theorem Memory.read_filter (m : Memory) (a a' : Nat) :
    Memory.read (m.filter (fun c => c.1 ≠ a)) a' = if a' = a then Memory.background a else m.read a' := by
  induction m with
  | nil => simp +contextual [Memory.read]
  | cons c m ih =>
    obtain ⟨k, b⟩ := c
    by_cases hk : k = a
    · subst hk
      by_cases ha : a' = k
      · simpa [ha] using ih
      · simp only [ha, if_false] at ih ⊢
        simp [Memory.read, Ne.symm ha] at ih ⊢
        exact ih
    · by_cases ha : a' = a
      · subst ha
        simp only [if_true] at ih ⊢
        simp [hk, Memory.read] at ih ⊢
        exact ih
      · simp only [ha, if_false] at ih ⊢
        simp [hk, Memory.read] at ih ⊢
        rw [ih]

theorem Memory.read_insertCell (m : Memory) (a a' : Nat) (b : Byte) (h : a' = a → ∀ c ∈ m, c.1 ≠ a) :
    Memory.read (Memory.insertCell a b m) a' = if a' = a then b else m.read a' := by
  induction m with
  | nil => simp [Memory.insertCell, Memory.read, eq_comm]
  | cons c m ih =>
    obtain ⟨k, d⟩ := c
    have ih := ih (fun e c hc => h e c (List.mem_cons_of_mem _ hc))
    by_cases hk : a < k
    · simp [Memory.insertCell, hk, Memory.read, eq_comm]
    · by_cases ha : a' = a
      · subst ha
        have : k ≠ a' := h rfl (k, d) List.mem_cons_self
        simpa [Memory.insertCell, hk, Memory.read, this] using ih
      · simp [Memory.insertCell, hk, Memory.read, ih, ha]

/-- A write changes the addressed byte alone (R57). -/
@[simp] theorem Memory.read_write (m : Memory) (a a' : Nat) (b : Byte) :
    Memory.read (m.write a b) a' = if a' = a then b else m.read a' := by
  unfold Memory.write
  split
  · rename_i hb
    rw [Memory.read_filter, hb]
  · rw [Memory.read_insertCell, Memory.read_filter]
    · by_cases ha : a' = a <;> simp [ha]
    · intro _ c hc
      simpa using (List.mem_filter.mp hc).2

/-! ### The canonical form (log 1) -/

theorem Memory.risingFrom_mono {lo hi : Nat} (h : lo ≤ hi) {m : Memory} (hm : Memory.risingFrom hi m = true) :
    Memory.risingFrom lo m = true := by
  cases m with
  | nil => rfl
  | cons c m =>
    simp only [Memory.risingFrom, Bool.and_eq_true, decide_eq_true_eq] at hm ⊢
    exact ⟨by omega, hm.2⟩

theorem Memory.risingFrom_filter (p : Host.Cell → Bool) {lo : Nat} {m : Memory}
    (hm : Memory.risingFrom lo m = true) : Memory.risingFrom lo (m.filter p) = true := by
  induction m generalizing lo with
  | nil => rfl
  | cons c m ih =>
    simp only [Memory.risingFrom, Bool.and_eq_true, decide_eq_true_eq] at hm
    by_cases hp : p c = true
    · simpa [List.filter_cons_of_pos hp, Memory.risingFrom, hm.1] using ih hm.2
    · rw [List.filter_cons_of_neg hp]
      exact Memory.risingFrom_mono (by omega) (ih hm.2)

theorem Memory.risingFrom_insertCell {lo a : Nat} (b : Byte) {m : Memory} (hlo : lo ≤ a)
    (hne : ∀ c ∈ m, c.1 ≠ a) (hm : Memory.risingFrom lo m = true) :
    Memory.risingFrom lo (Memory.insertCell a b m) = true := by
  induction m generalizing lo with
  | nil => simpa [Memory.insertCell, Memory.risingFrom] using hlo
  | cons c m ih =>
    obtain ⟨k, d⟩ := c
    have hk : k ≠ a := hne (k, d) List.mem_cons_self
    simp only [Memory.risingFrom, Bool.and_eq_true, decide_eq_true_eq] at hm
    by_cases h : a < k
    · simp [Memory.insertCell, h, Memory.risingFrom, hlo, hm.2]
    · simp only [Memory.insertCell, h, if_false, Memory.risingFrom, Bool.and_eq_true, decide_eq_true_eq]
      exact ⟨hm.1, ih (by omega) (fun c hc => hne c (List.mem_cons_of_mem _ hc)) hm.2⟩

theorem Memory.mem_insertCell {a : Nat} {b : Byte} {m : Memory} {c : Host.Cell} (h : c ∈ Memory.insertCell a b m) :
    c = (a, b) ∨ c ∈ m := by
  induction m with
  | nil => simpa [Memory.insertCell] using h
  | cons d m ih =>
    obtain ⟨k, e⟩ := d
    simp only [Memory.insertCell] at h
    split at h
    · simpa using h
    · rcases List.mem_cons.mp h with rfl | h
      · exact .inr List.mem_cons_self
      · exact (ih h).imp_right (List.mem_cons_of_mem _)

/-- Every write keeps the canonical form. -/
theorem Memory.wf_write {m : Memory} (hm : m.wf = true) {a : Nat} (ha : a < 4096) (b : Byte) :
    (m.write a b).wf = true := by
  simp only [Memory.wf, Bool.and_eq_true, List.all_eq_true, decide_eq_true_eq] at hm ⊢
  unfold Memory.write
  split
  · exact ⟨Memory.risingFrom_filter _ hm.1, fun c hc => hm.2 c (List.mem_filter.mp hc).1⟩
  · refine ⟨Memory.risingFrom_insertCell b (Nat.zero_le _) (fun c hc => ?_) (Memory.risingFrom_filter _ hm.1), ?_⟩
    · simpa using (List.mem_filter.mp hc).2
    · intro c hc
      rcases Memory.mem_insertCell hc with rfl | hc
      · exact ⟨ha, ‹_›⟩
      · exact hm.2 c (List.mem_filter.mp hc).1

theorem Memory.wf_storeEA {m : Memory} (hm : m.wf = true) (i : Word) (k : Nat) (bs : List Byte) :
    (Memory.storeEA i k bs m).wf = true := by
  induction bs generalizing m k with
  | nil => exact hm
  | cons b bs ih => exact ih (Memory.wf_write hm (by rw [ea_toNat]; omega) b) (k + 1)

theorem Memory.wf_copyImage {m : Memory} (hm : m.wf = true) (a : Nat) (bs : List Byte)
    (h : a + bs.length ≤ 4096) : (Memory.copyImage a bs m).wf = true := by
  induction bs generalizing m a with
  | nil => exact hm
  | cons b bs ih =>
    simp only [List.length_cons] at h
    exact ih (Memory.wf_write hm (by omega) b) (a + 1) (by omega)

/-- Bytes below every listed address read as their reset contents. -/
theorem Memory.read_of_risingFrom {lo a : Nat} {m : Memory} (hm : Memory.risingFrom lo m = true) (h : a < lo) :
    m.read a = Memory.background a := by
  induction m generalizing lo with
  | nil => rfl
  | cons c m ih =>
    obtain ⟨k, b⟩ := c
    simp only [Memory.risingFrom, Bool.and_eq_true, decide_eq_true_eq] at hm
    have : k ≠ a := by omega
    simpa [Memory.read, this] using ih hm.2 (by omega)

/-- Two canonical memories that read alike are equal data. -/
theorem Memory.eq_of_read_eq {m m' : Memory} (hm : m.wf = true) (hm' : m'.wf = true)
    (h : ∀ a, m.read a = m'.read a) : m = m' := by
  simp only [Memory.wf, Bool.and_eq_true, List.all_eq_true, decide_eq_true_eq] at hm hm'
  obtain ⟨hr, hb⟩ := hm
  obtain ⟨hr', hb'⟩ := hm'
  generalize hlo : (0 : Nat) = lo at hr hr'
  clear hlo
  induction m generalizing m' lo with
  | nil =>
    cases m' with
    | nil => rfl
    | cons c m' =>
      have := h c.1
      simp only [Memory.read, if_true] at this
      exact absurd this.symm (hb' c List.mem_cons_self).2
  | cons c m ih =>
    obtain ⟨k, b⟩ := c
    cases m' with
    | nil =>
      have := h k
      simp only [Memory.read, if_true] at this
      exact absurd this (hb (k, b) List.mem_cons_self).2
    | cons c' m' =>
      obtain ⟨k', b'⟩ := c'
      simp only [Memory.risingFrom, Bool.and_eq_true, decide_eq_true_eq] at hr hr'
      have hk : k = k' := by
        rcases Nat.lt_trichotomy k k' with hlt | heq | hlt
        · have := h k
          simp only [Memory.read, if_true, Nat.ne_of_gt hlt, if_false] at this
          rw [Memory.read_of_risingFrom hr'.2 (by omega)] at this
          exact absurd this (hb (k, b) List.mem_cons_self).2
        · exact heq
        · have := h k'
          simp only [Memory.read, if_true, Nat.ne_of_gt hlt, if_false] at this
          rw [Memory.read_of_risingFrom hr.2 (by omega)] at this
          exact absurd this.symm (hb' (k', b') List.mem_cons_self).2
      subst hk
      have hbb : b = b' := by simpa [Memory.read] using h k
      subst hbb
      rw [ih (m' := m') (fun a => ?_) (fun c hc => hb c (List.mem_cons_of_mem _ hc))
        (fun c hc => hb' c (List.mem_cons_of_mem _ hc)) (k + 1) hr.2 hr'.2]
      by_cases ha : k = a
      · subst ha
        rw [Memory.read_of_risingFrom hr.2 (by omega), Memory.read_of_risingFrom hr'.2 (by omega)]
      · simpa [Memory.read, ha] using h a

/-! ### Multi-byte stores (R56, R64, R291) -/

/-- An address that a store sequence does not reach keeps its byte. -/
theorem Memory.read_storeEA_other (i : Word) (k : Nat) (bs : List Byte) (m : Memory) (a : Nat)
    (h : ∀ j < bs.length, a ≠ (i.toNat + (k + j)) % 4096) : (Memory.storeEA i k bs m).read a = m.read a := by
  induction bs generalizing m k with
  | nil => rfl
  | cons b bs ih =>
    simp only [Memory.storeEA]
    rw [ih (k + 1) _ fun j hj => by
      have := h (j + 1) (by simpa using hj)
      rwa [Nat.add_assoc k 1 j, Nat.add_comm 1 j]]
    have := h 0 (by simp)
    simp only [Nat.add_zero] at this
    simp [ea_toNat, this]

/-- A store sequence of at most 4096 bytes leaves each of its bytes at its address: the addresses are distinct
(R64). -/
theorem Memory.read_storeEA_at (i : Word) (k : Nat) (bs : List Byte) (m : Memory) (hlen : bs.length ≤ 4096)
    (j : Nat) (hj : j < bs.length) : (Memory.storeEA i k bs m).read ((i.toNat + (k + j)) % 4096) = bs[j] := by
  induction bs generalizing m k j with
  | nil => simp at hj
  | cons b bs ih =>
    simp only [List.length_cons] at hlen hj
    cases j with
    | zero =>
      simp only [Memory.storeEA, Nat.add_zero]
      rw [Memory.read_storeEA_other _ _ _ _ _ fun j hj => by omega]
      simp [ea_toNat]
    | succ j =>
      have := ih (k + 1) (m.write (ea i k).toNat b) (by omega) j (by omega)
      simpa [Memory.storeEA, Nat.add_assoc, Nat.add_comm 1 j] using this

theorem Memory.read_copyImage_other (a : Nat) (bs : List Byte) (m : Memory) (a' : Nat)
    (h : a' < a ∨ a + bs.length ≤ a') : (Memory.copyImage a bs m).read a' = m.read a' := by
  induction bs generalizing m a with
  | nil => rfl
  | cons b bs ih =>
    simp only [List.length_cons] at h
    simp only [Memory.copyImage]
    rw [ih (a + 1) _ (by omega)]
    have : a' ≠ a := by omega
    simp [this]

theorem Memory.read_copyImage_at (a : Nat) (bs : List Byte) (m : Memory) (j : Nat) (hj : j < bs.length) :
    (Memory.copyImage a bs m).read (a + j) = bs[j] := by
  induction bs generalizing m a j with
  | nil => simp at hj
  | cons b bs ih =>
    cases j with
    | zero =>
      simp only [Memory.copyImage, Nat.add_zero]
      rw [Memory.read_copyImage_other _ _ _ _ (by omega)]
      simp
    | succ j =>
      simp only [List.length_cons] at hj
      have := ih (a + 1) (m.write a b) j (by omega)
      simpa [Memory.copyImage, Nat.add_assoc, Nat.add_comm 1 j] using this

/-- Past the glyphs, the reset contents are zero (R39). -/
theorem Memory.background_of_ge {a : Nat} (h : 80 ≤ a) : Memory.background a = 0#8 := by
  have hlen : Config.glyphTable.length = 80 := rfl
  exact List.getD_eq_default _ _ (hlen ▸ h)

end Sys2Proof.Machine
end

