-- ==== Sys2Proof/Laws/PerInstr.lean ====
section
/-! SUPPORT. Statements made once per instruction. MatchesRow: the word of an instruction is a word of its row of the
opcode map, whatever its operands (R75). -/

namespace Sys2Proof.Laws.MatchesRow

/-- The mask of an instruction's row of the opcode map (R75). -/
def mask : Instr → Word
  | .cls | .ret => 0xFFFF#16
  | .jp _ | .call _ | .seImm _ _ | .sneImm _ _ | .ldImm _ _ | .addImm _ _ | .ldI _ | .jpV0 _ | .rnd _ _ | .drw _ _ _ => 0xF000#16
  | .seReg _ _ | .ldReg _ _ | .or _ _ | .and _ _ | .xor _ _ | .addReg _ _ | .sub _ _ | .shr _ _ | .subn _ _ | .shl _ _ | .sneReg _ _ => 0xF00F#16
  | .skp _ | .sknp _ | .ldVxDt _ | .ldVxKey _ | .ldDtVx _ | .ldStVx _ | .addI _ | .ldGlyph _ | .ldBcd _ | .storeRegs _ | .loadRegs _ => 0xF0FF#16

/-- The match of an instruction's row of the opcode map (R75). -/
def pattern : Instr → Word
  | .cls => 0x00E0#16
  | .ret => 0x00EE#16
  | .jp _ => 0x1000#16
  | .call _ => 0x2000#16
  | .seImm _ _ => 0x3000#16
  | .sneImm _ _ => 0x4000#16
  | .seReg _ _ => 0x5000#16
  | .ldImm _ _ => 0x6000#16
  | .addImm _ _ => 0x7000#16
  | .ldReg _ _ => 0x8000#16
  | .or _ _ => 0x8001#16
  | .and _ _ => 0x8002#16
  | .xor _ _ => 0x8003#16
  | .addReg _ _ => 0x8004#16
  | .sub _ _ => 0x8005#16
  | .shr _ _ => 0x8006#16
  | .subn _ _ => 0x8007#16
  | .shl _ _ => 0x800E#16
  | .sneReg _ _ => 0x9000#16
  | .ldI _ => 0xA000#16
  | .jpV0 _ => 0xB000#16
  | .rnd _ _ => 0xC000#16
  | .drw _ _ _ => 0xD000#16
  | .skp _ => 0xE09E#16
  | .sknp _ => 0xE0A1#16
  | .ldVxDt _ => 0xF007#16
  | .ldVxKey _ => 0xF00A#16
  | .ldDtVx _ => 0xF015#16
  | .ldStVx _ => 0xF018#16
  | .addI _ => 0xF01E#16
  | .ldGlyph _ => 0xF029#16
  | .ldBcd _ => 0xF033#16
  | .storeRegs _ => 0xF055#16
  | .loadRegs _ => 0xF065#16

/-- `op AND mask = match` for the instruction's word, and the row is one of the map's (R75). -/
def Statement (i : Instr) : Prop := (encode i &&& mask i = pattern i) ∧ (pattern i, mask i) ∈ opcodeMap

theorem cls : Statement .cls :=
  ⟨by decide, by simp [pattern, mask, opcodeMap]⟩
theorem ret : Statement .ret :=
  ⟨by decide, by simp [pattern, mask, opcodeMap]⟩
theorem jp (nnn : Addr) : Statement (.jp nnn) :=
  ⟨(masked_F000 _ 0x1#4).mpr (by simp [encode]), by simp [pattern, mask, opcodeMap]⟩
theorem call (nnn : Addr) : Statement (.call nnn) :=
  ⟨(masked_F000 _ 0x2#4).mpr (by simp [encode]), by simp [pattern, mask, opcodeMap]⟩
theorem seImm (x : Nibble) (kk : Byte) : Statement (.seImm x kk) :=
  ⟨(masked_F000 _ 0x3#4).mpr (by simp [encode]), by simp [pattern, mask, opcodeMap]⟩
theorem sneImm (x : Nibble) (kk : Byte) : Statement (.sneImm x kk) :=
  ⟨(masked_F000 _ 0x4#4).mpr (by simp [encode]), by simp [pattern, mask, opcodeMap]⟩
theorem seReg (x : Nibble) (y : Nibble) : Statement (.seReg x y) :=
  ⟨(masked_F00F _ 0x5#4 0x0#4).mpr (by simp [encode]), by simp [pattern, mask, opcodeMap]⟩
theorem ldImm (x : Nibble) (kk : Byte) : Statement (.ldImm x kk) :=
  ⟨(masked_F000 _ 0x6#4).mpr (by simp [encode]), by simp [pattern, mask, opcodeMap]⟩
theorem addImm (x : Nibble) (kk : Byte) : Statement (.addImm x kk) :=
  ⟨(masked_F000 _ 0x7#4).mpr (by simp [encode]), by simp [pattern, mask, opcodeMap]⟩
theorem ldReg (x : Nibble) (y : Nibble) : Statement (.ldReg x y) :=
  ⟨(masked_F00F _ 0x8#4 0x0#4).mpr (by simp [encode]), by simp [pattern, mask, opcodeMap]⟩
theorem or (x : Nibble) (y : Nibble) : Statement (.or x y) :=
  ⟨(masked_F00F _ 0x8#4 0x1#4).mpr (by simp [encode]), by simp [pattern, mask, opcodeMap]⟩
theorem and (x : Nibble) (y : Nibble) : Statement (.and x y) :=
  ⟨(masked_F00F _ 0x8#4 0x2#4).mpr (by simp [encode]), by simp [pattern, mask, opcodeMap]⟩
theorem xor (x : Nibble) (y : Nibble) : Statement (.xor x y) :=
  ⟨(masked_F00F _ 0x8#4 0x3#4).mpr (by simp [encode]), by simp [pattern, mask, opcodeMap]⟩
theorem addReg (x : Nibble) (y : Nibble) : Statement (.addReg x y) :=
  ⟨(masked_F00F _ 0x8#4 0x4#4).mpr (by simp [encode]), by simp [pattern, mask, opcodeMap]⟩
theorem sub (x : Nibble) (y : Nibble) : Statement (.sub x y) :=
  ⟨(masked_F00F _ 0x8#4 0x5#4).mpr (by simp [encode]), by simp [pattern, mask, opcodeMap]⟩
theorem shr (x : Nibble) (y : Nibble) : Statement (.shr x y) :=
  ⟨(masked_F00F _ 0x8#4 0x6#4).mpr (by simp [encode]), by simp [pattern, mask, opcodeMap]⟩
theorem subn (x : Nibble) (y : Nibble) : Statement (.subn x y) :=
  ⟨(masked_F00F _ 0x8#4 0x7#4).mpr (by simp [encode]), by simp [pattern, mask, opcodeMap]⟩
theorem shl (x : Nibble) (y : Nibble) : Statement (.shl x y) :=
  ⟨(masked_F00F _ 0x8#4 0xE#4).mpr (by simp [encode]), by simp [pattern, mask, opcodeMap]⟩
theorem sneReg (x : Nibble) (y : Nibble) : Statement (.sneReg x y) :=
  ⟨(masked_F00F _ 0x9#4 0x0#4).mpr (by simp [encode]), by simp [pattern, mask, opcodeMap]⟩
theorem ldI (nnn : Addr) : Statement (.ldI nnn) :=
  ⟨(masked_F000 _ 0xA#4).mpr (by simp [encode]), by simp [pattern, mask, opcodeMap]⟩
theorem jpV0 (nnn : Addr) : Statement (.jpV0 nnn) :=
  ⟨(masked_F000 _ 0xB#4).mpr (by simp [encode]), by simp [pattern, mask, opcodeMap]⟩
theorem rnd (x : Nibble) (kk : Byte) : Statement (.rnd x kk) :=
  ⟨(masked_F000 _ 0xC#4).mpr (by simp [encode]), by simp [pattern, mask, opcodeMap]⟩
theorem drw (x : Nibble) (y : Nibble) (n : Nat) : Statement (.drw x y n) :=
  ⟨(masked_F000 _ 0xD#4).mpr (by simp [encode]), by simp [pattern, mask, opcodeMap]⟩
theorem skp (x : Nibble) : Statement (.skp x) :=
  ⟨(masked_F0FF _ 0xE#4 0x9E#8).mpr (by simp [encode]), by simp [pattern, mask, opcodeMap]⟩
theorem sknp (x : Nibble) : Statement (.sknp x) :=
  ⟨(masked_F0FF _ 0xE#4 0xA1#8).mpr (by simp [encode]), by simp [pattern, mask, opcodeMap]⟩
theorem ldVxDt (x : Nibble) : Statement (.ldVxDt x) :=
  ⟨(masked_F0FF _ 0xF#4 0x07#8).mpr (by simp [encode]), by simp [pattern, mask, opcodeMap]⟩
theorem ldVxKey (x : Nibble) : Statement (.ldVxKey x) :=
  ⟨(masked_F0FF _ 0xF#4 0x0A#8).mpr (by simp [encode]), by simp [pattern, mask, opcodeMap]⟩
theorem ldDtVx (x : Nibble) : Statement (.ldDtVx x) :=
  ⟨(masked_F0FF _ 0xF#4 0x15#8).mpr (by simp [encode]), by simp [pattern, mask, opcodeMap]⟩
theorem ldStVx (x : Nibble) : Statement (.ldStVx x) :=
  ⟨(masked_F0FF _ 0xF#4 0x18#8).mpr (by simp [encode]), by simp [pattern, mask, opcodeMap]⟩
theorem addI (x : Nibble) : Statement (.addI x) :=
  ⟨(masked_F0FF _ 0xF#4 0x1E#8).mpr (by simp [encode]), by simp [pattern, mask, opcodeMap]⟩
theorem ldGlyph (x : Nibble) : Statement (.ldGlyph x) :=
  ⟨(masked_F0FF _ 0xF#4 0x29#8).mpr (by simp [encode]), by simp [pattern, mask, opcodeMap]⟩
theorem ldBcd (x : Nibble) : Statement (.ldBcd x) :=
  ⟨(masked_F0FF _ 0xF#4 0x33#8).mpr (by simp [encode]), by simp [pattern, mask, opcodeMap]⟩
theorem storeRegs (x : Nibble) : Statement (.storeRegs x) :=
  ⟨(masked_F0FF _ 0xF#4 0x55#8).mpr (by simp [encode]), by simp [pattern, mask, opcodeMap]⟩
theorem loadRegs (x : Nibble) : Statement (.loadRegs x) :=
  ⟨(masked_F0FF _ 0xF#4 0x65#8).mpr (by simp [encode]), by simp [pattern, mask, opcodeMap]⟩

end Sys2Proof.Laws.MatchesRow
end

