-- ==== Sys2Proof/Laws/Step.lean ====
section
/-! SUPPORT. What a step can do, said once: the cases of an operation, of the step cycle, and of `exec` on FAULT, the
memory, the call stack and the tone events. -/

namespace Sys2Proof.Machine

/-! ### Sampling and fetching -/

/-- Sampling writes the input latches and the model's own fields alone (R87). -/
theorem SamplesTo.eq {s s' : State} (h : SamplesTo s s') :
    s' = { s with keys := s'.keys, rnd := s'.rnd, schedule := s'.schedule, freeCount := s'.freeCount } := by
  rcases h with ⟨-, rfl⟩ | ⟨_, _, _, -, rfl⟩ <;> rfl

/-- A step of an unfaulted core whose next operation is a `Step` is the step cycle on the sampled state (R86). -/
theorem step_of_samples {s s' : State} (hf : s.unfaulted) (hs : SamplesTo s s') : step s = fetchDecodeExec s' := by
  unfold State.unfaulted at hf
  rcases hs with ⟨h, rfl⟩ | ⟨k, r, rest, h, rfl⟩
  · simp [step, nextOperation, h, heldStep, runStep, hf, State.sample]
  · simp [step, nextOperation, h, performOp, runStep, hf, State.sample]

/-- The fetched word as a number: the high byte at the lower address (R54). -/
theorem Memory.wordAt_eq (m : Memory) (a : Nat) :
    m.wordAt a = BitVec.ofNat 16 ((m.read a).toNat * 256 + (m.read (a + 1)).toNat) := by
  apply BitVec.eq_of_toNat_eq
  have h1 := (m.read a).isLt
  have h2 := (m.read (a + 1)).isLt
  rw [Memory.wordAt, wordOfBytes_toNat]
  simp only [BitVec.toNat_ofNat]
  omega

theorem State.fetch_of_le {s : State} (h : s.pc.toNat ≤ 0xFFE) : s.fetch = some (s.mem.wordAt s.pc.toNat) := by
  simp [State.fetch, fetchable, h]

theorem State.fetch_eq_none {s : State} : s.fetch = none ↔ 0xFFF ≤ s.pc.toNat := by
  by_cases h : s.pc.toNat ≤ 0xFFE
  · simp [State.fetch_of_le h]
    omega
  · simp [State.fetch, fetchable, h]
    omega

/-! ### Operands -/

theorem lowNibble_val (b : Byte) : (lowNibble b).val = b.toNat % 16 := by simp [lowNibble]

theorem zextAddr_eq (nnn : Addr) : zextAddr nnn = BitVec.ofNat 16 nnn.toNat := by
  apply BitVec.eq_of_toNat_eq
  simp [zextAddr]

@[simp] theorem zextAddr_toNat (nnn : Addr) : (zextAddr nnn).toNat = nnn.toNat := by
  have := nnn.isLt
  simp [zextAddr]
  omega

@[simp] theorem zextByte_toNat (b : Byte) : (zextByte b).toNat = b.toNat := by
  have := b.isLt
  simp [zextByte]
  omega

theorem lowestKey_eq_none (keys : Word) : lowestKey keys = none ↔ keys = 0#16 := by
  rw [lowestKey, List.find?_eq_none]
  simp only [List.mem_finRange, forall_const, keyPressed]
  constructor
  · intro h
    apply BitVec.eq_of_getLsbD_eq
    intro i hi
    simpa using h ⟨i, hi⟩
  · rintro rfl
    simp

/-- The key `Fx0A` takes is pressed, and no lower one is (R226). -/
theorem lowestKey_eq_some {keys : Word} {k : Nibble} (h : lowestKey keys = some k) :
    keys.getLsbD k.val = true ∧ ∀ j < k.val, keys.getLsbD j = false := by
  rw [lowestKey, List.find?_eq_some_iff_getElem] at h
  obtain ⟨hk, i, hi, he, hlt⟩ := h
  simp only [List.getElem_finRange] at he hlt
  subst he
  refine ⟨hk, fun j hj => ?_⟩
  simpa [keyPressed] using hlt j (by simpa using hj)

/-! ### Timers -/

theorem countDown_toNat (t : Byte) : (countDown t).toNat = t.toNat - 1 := by
  have := t.isLt
  unfold countDown
  split
  · simp_all
  · rename_i h
    have : t.toNat ≠ 0 := fun h' => h (BitVec.eq_of_toNat_eq h')
    rw [BitVec.toNat_sub]
    simp
    omega

@[simp] theorem toneEdge_self (b : Byte) : toneEdge b b = [] := by simp [toneEdge]

/-! ### The cases of an operation (R260) -/

/-- What a step of the machine can be: a `Step` on a latched fault, the step cycle, or another operation. -/
theorem step_cases {s t : State} (h : step s = .next t) :
    (s.fault.isSome ∧ t = { s with schedule := t.schedule }) ∨
    (s.unfaulted ∧ ∃ s', SamplesTo s s' ∧ fetchDecodeExec s' = .next t) ∨
    (∃ rest, s.schedule = .tick :: rest ∧ t = ({ s with schedule := rest } : State).tick) ∨
    (∃ rest, s.schedule = .skip :: rest ∧ s.fault.isSome ∧ t = ({ s with schedule := rest } : State).skipFault) ∨
    (∃ image rest, s.schedule = .reset image :: rest ∧ image.length ≤ Config.maxImage ∧
      t = { loaded image with schedule := rest, freeCount := s.freeCount }) := by
  cases hs : s.schedule with
  | nil =>
    rcases Option.eq_none_or_eq_some s.fault with hf | ⟨r, hf⟩
    · have hsam : SamplesTo s { s with rnd := .free s.freeCount, freeCount := s.freeCount + 1 } := .inl ⟨hs, rfl⟩
      exact .inr (.inl ⟨hf, _, hsam, (step_of_samples hf hsam).symm.trans h⟩)
    · simp [step, nextOperation, hs, heldStep, hf] at h
      subst h
      exact .inl ⟨by simp [hf], rfl⟩
  | cons op rest =>
    cases op with
    | step k rnd =>
      rcases Option.eq_none_or_eq_some s.fault with hf | ⟨r, hf⟩
      · have hsam : SamplesTo s { s with keys := k, rnd := .supplied rnd, schedule := rest } :=
          .inr ⟨k, rnd, rest, hs, rfl⟩
        exact .inr (.inl ⟨hf, _, hsam, (step_of_samples hf hsam).symm.trans h⟩)
      · simp [step, nextOperation, hs, performOp, runStep, hf] at h
        subst h
        exact .inl ⟨by simp [hf], by simp [hf]⟩
    | tick =>
      simp only [step, nextOperation, hs, performOp, Host.Outcome.next.injEq] at h
      exact .inr (.inr (.inl ⟨rest, rfl, h.symm⟩))
    | skip =>
      simp only [step, nextOperation, hs, performOp, skipOp] at h
      split at h
      · rename_i hc
        cases h
        exact .inr (.inr (.inr (.inl ⟨rest, rfl, (Bool.and_eq_true _ _ ▸ hc).2, rfl⟩)))
      · cases h
    | reset image =>
      simp only [step, nextOperation, hs, performOp, resetOp, resetWith] at h
      by_cases hl : image.length ≤ Config.maxImage
      · simp only [hl, if_true, Host.Outcome.next.injEq] at h
        exact .inr (.inr (.inr (.inr ⟨image, rest, rfl, hl, h.symm⟩)))
      · simp [hl] at h

/-- What the step cycle can be: a fault of the fetch, a fault of the decode, or an instruction (R256). -/
theorem fetchDecodeExec_cases {s t : State} (h : fetchDecodeExec s = .next t) :
    (0xFFF ≤ s.pc.toNat ∧ t = s.raise .outOfBoundsFetch none) ∨
    (s.pc.toNat ≤ 0xFFE ∧ decode (s.mem.wordAt s.pc.toNat) = none ∧
      t = s.raise .illegalInstruction (some (s.mem.wordAt s.pc.toNat))) ∨
    (s.pc.toNat ≤ 0xFFE ∧ ∃ i, decode (s.mem.wordAt s.pc.toNat) = some i ∧ exec i s = .next t) := by
  by_cases hpc : s.pc.toNat ≤ 0xFFE
  · rw [fetchDecodeExec, State.fetch_of_le hpc] at h
    cases hd : decode (s.mem.wordAt s.pc.toNat) with
    | none => simp only [hd, Host.Outcome.next.injEq] at h; exact .inr (.inl ⟨hpc, rfl, h.symm⟩)
    | some i => simp only [hd] at h; exact .inr (.inr ⟨hpc, i, rfl, h⟩)
  · have hf : s.fetch = none := State.fetch_eq_none.mpr (by omega)
    simp only [fetchDecodeExec, hf, Host.Outcome.next.injEq] at h
    exact .inl ⟨by omega, h.symm⟩

/-! ### The cases of `exec` -/

/-- A return: the underflow, or the popped state (R120). -/
theorem execRet_cases (s : State) :
    (s.sp.val = 0 ∧ exec .ret s = .next (s.raise .stackUnderflow (some (encode .ret)))) ∨
    (∃ h : 0 < s.sp.val, exec .ret s = .next { s with
      sp := ⟨s.sp.val - 1, by omega⟩, pc := s.stack.get ⟨s.sp.val - 1, by omega⟩ }) := by
  by_cases h : s.sp.val = 0
  · left
    exact ⟨h, by simp only [exec, execRet, (State.pop_eq_none s).mpr h]⟩
  · right
    have h : 0 < s.sp.val := by omega
    exact ⟨h, by simp only [exec, execRet, State.pop_of_pos s h]; rfl⟩

/-- A call: the overflow, or the pushed state (R124). -/
theorem execCall_cases (nnn : Addr) (s : State) :
    (s.sp.val = 16 ∧ exec (.call nnn) s = .next (s.raise .stackOverflow (some (encode (.call nnn))))) ∨
    (∃ h : s.sp.val < 16, exec (.call nnn) s = .next { s with
      stack := s.stack.set s.sp.val (s.pc + 2#16), sp := ⟨s.sp.val + 1, by omega⟩, pc := zextAddr nnn }) := by
  have h16 := s.sp.isLt
  by_cases h : s.sp.val = 16
  · left
    exact ⟨h, by simp only [exec, execCall, (State.push_eq_none s _).mpr h]⟩
  · right
    have h : s.sp.val < 16 := by omega
    exact ⟨h, by simp only [exec, execCall, State.push_of_lt s _ h]; rfl⟩

/-- A key wait: nothing at all, or the lowest key (R226). -/
theorem execLdVxKey_cases (x : Nibble) (s : State) :
    (s.keys = 0#16 ∧ exec (.ldVxKey x) s = .next s) ∨
    (∃ k, lowestKey s.keys = some k ∧ exec (.ldVxKey x) s = .next (s.writeV x (keyByte k)).advance) := by
  cases h : lowestKey s.keys with
  | none => exact .inl ⟨(lowestKey_eq_none _).mp h, by simp [exec, execLdVxKey, h]⟩
  | some k => exact .inr ⟨k, rfl, by simp [exec, execLdVxKey, h]⟩

/-- `exec` writes FAULT in two ways only, each raising on the unchanged state (R250, R252). -/
theorem exec_fault {i : Instr} {s t : State} (h : exec i s = .next t) :
    (i = .ret ∧ s.sp.val = 0 ∧ t = s.raise .stackUnderflow (some (encode i))) ∨
    (∃ nnn, i = .call nnn ∧ s.sp.val = 16 ∧ t = s.raise .stackOverflow (some (encode i))) ∨
    (t.fault = s.fault ∧ ¬ (i = .ret ∧ s.sp.val = 0) ∧ ∀ nnn, ¬ (i = .call nnn ∧ s.sp.val = 16)) := by
  cases i
  case ret =>
    rcases execRet_cases s with ⟨h0, he⟩ | ⟨h0, he⟩ <;> cases he.symm.trans h
    · exact .inl ⟨rfl, h0, rfl⟩
    · exact .inr (.inr ⟨rfl, by omega, by simp⟩)
  case call nnn =>
    rcases execCall_cases nnn s with ⟨h0, he⟩ | ⟨h0, he⟩ <;> cases he.symm.trans h
    · exact .inr (.inl ⟨nnn, rfl, h0, rfl⟩)
    · exact .inr (.inr ⟨rfl, by simp, by omega⟩)
  case ldVxKey x =>
    rcases execLdVxKey_cases x s with ⟨-, he⟩ | ⟨k, -, he⟩ <;> cases he.symm.trans h <;>
      exact .inr (.inr ⟨rfl, by simp, by simp⟩)
  all_goals cases h; exact .inr (.inr ⟨rfl, by simp, by simp⟩)

/-- `exec` leaves memory as it is, or stores bytes at EA(0), EA(1), … (R53). -/
theorem exec_mem {i : Instr} {s t : State} (h : exec i s = .next t) :
    t.mem = s.mem ∨ ∃ bs, t.mem = Memory.storeEA s.i 0 bs s.mem := by
  cases i
  case ret => rcases execRet_cases s with ⟨_, he⟩ | ⟨_, he⟩ <;> cases he.symm.trans h <;> exact .inl rfl
  case call nnn => rcases execCall_cases nnn s with ⟨_, he⟩ | ⟨_, he⟩ <;> cases he.symm.trans h <;> exact .inl rfl
  case ldVxKey x =>
    rcases execLdVxKey_cases x s with ⟨-, he⟩ | ⟨k, -, he⟩ <;> cases he.symm.trans h <;> exact .inl rfl
  all_goals cases h; first | exact .inl rfl | exact .inr ⟨_, rfl⟩

/-- `exec` leaves the call stack as it is, pushes the address of the next instruction, or drops the top
(R27). -/
theorem exec_stack {i : Instr} {s t : State} (h : exec i s = .next t) :
    (t.sp = s.sp ∧ t.stack = s.stack) ∨
    (∃ hsp : s.sp.val < 16, t.sp.val = s.sp.val + 1 ∧ t.stack = s.stack.set s.sp.val (s.pc + 2#16)) ∨
    (0 < s.sp.val ∧ t.sp.val = s.sp.val - 1 ∧ t.stack = s.stack) := by
  cases i
  case ret =>
    rcases execRet_cases s with ⟨-, he⟩ | ⟨h0, he⟩ <;> cases he.symm.trans h
    · exact .inl ⟨rfl, rfl⟩
    · exact .inr (.inr ⟨h0, rfl, rfl⟩)
  case call nnn =>
    rcases execCall_cases nnn s with ⟨-, he⟩ | ⟨h0, he⟩ <;> cases he.symm.trans h
    · exact .inl ⟨rfl, rfl⟩
    · exact .inr (.inl ⟨h0, rfl, rfl⟩)
  case ldVxKey x =>
    rcases execLdVxKey_cases x s with ⟨-, he⟩ | ⟨k, -, he⟩ <;> cases he.symm.trans h <;> exact .inl ⟨rfl, rfl⟩
  all_goals cases h; exact .inl ⟨rfl, rfl⟩

/-- `exec` emits the tone event of the edge of ST over it, and no other (R266). -/
theorem exec_events {i : Instr} {s t : State} (h : exec i s = .next t) :
    t.events = toneEdge s.st t.st ++ s.events := by
  cases i
  case ret => rcases execRet_cases s with ⟨_, he⟩ | ⟨_, he⟩ <;> cases he.symm.trans h <;> simp
  case call nnn => rcases execCall_cases nnn s with ⟨_, he⟩ | ⟨_, he⟩ <;> cases he.symm.trans h <;> simp
  case ldVxKey x => rcases execLdVxKey_cases x s with ⟨-, he⟩ | ⟨k, -, he⟩ <;> cases he.symm.trans h <;> simp
  all_goals cases h; simp

/-! ### Sprites and tone events in the terms of Safety.lean -/

/-- The pixels that the sprite loop of `Dxyn` hits are those the sprite covers (R104, R106). -/
theorem spriteHits_iff_covers (s : State) (x y : Nibble) (n : Nat) (px : Fin 64) (py : Fin 32) :
    spriteHits (s.readV x).toNat (s.readV y).toNat 0 (spriteBytes s.mem s.i n) px py ↔
      SpriteCovers s x y n px py := by
  constructor
  · rintro ⟨j, hj, c, hc, hb, hl⟩
    refine ⟨j, c, by simpa [spriteBytes] using hj, hc, by simpa [spriteBytes, Memory.readEA_eq] using hb, ?_, ?_⟩
    · simpa [landing] using congrArg (fun p => p.1.val) hl.symm
    · simpa [landing] using congrArg (fun p => p.2.val) hl.symm
  · rintro ⟨r, c, hr, hc, hb, hx, hy⟩
    refine ⟨r, by simpa [spriteBytes] using hr, c, hc, by simpa [spriteBytes, Memory.readEA_eq] using hb, ?_⟩
    simp only [landing, Prod.mk.injEq, Fin.ext_iff, Fin.val_ofNat, Nat.zero_add]
    exact ⟨hx.symm, hy.symm⟩

/-- Emitting the tone event of an edge of ST keeps the events alternating and in agreement with ST (R267). -/
theorem toneAlternates_edge (before after : Byte) (events : List ToneEvent)
    (h : toneAlternates (before != 0#8) events = true) :
    toneAlternates (after != 0#8) (toneEdge before after ++ events) = true := by
  by_cases ha : before = 0#8 <;> by_cases hb : after = 0#8
  · simpa [ha, hb, toneEdge] using h
  · rw [show (after != 0#8) = true by simp [hb]]
    simpa [ha, hb, toneEdge, toneAlternates] using h
  · rw [show (before != 0#8) = true by simp [ha]] at h
    simpa [ha, hb, toneEdge, toneAlternates] using h
  · rw [show (after != 0#8) = true by simp [hb]]
    rw [show (before != 0#8) = true by simp [ha]] at h
    simpa [ha, hb, toneEdge, toneAlternates] using h

end Sys2Proof.Machine
end

