-- ==== Sys2Proof/Tests/Slice0.lean ====
section
/-! SUPPORT. The model's own tests, each a named theorem on fixed values. The words and the expected results are those
of 95_test_vectors.md (V-…, W…), or are written out from the patterns of R75 and the rules named beside them. The last
part holds, for every obligation with hypotheses, concrete values that meet them. -/

namespace Sys2Proof.Tests

open Sys2Proof.Machine

/-! ### Helpers -/

/-- The reset state with a word at PC. -/
def start (op : Word) : State := State.reset.placeWord op

/-- Some registers set. -/
def withRegs (rs : List (Nibble × Byte)) (s : State) : State := rs.foldl (fun s r => s.writeV r.1 r.2) s

/-- Bytes from an address on. -/
def withBytes (a : Nat) (bs : List Byte) (s : State) : State := { s with mem := s.mem.copyImage a bs }

/-- The next operation is a `Step` with these inputs. -/
def withInputs (keys : Word) (rnd : Byte) (s : State) : State := { s with schedule := [.step keys rnd] }

/-- One reading of the next state. -/
def view {α : Type} (o : Host.Outcome State Fault Refusal) (f : State → α) : Option α :=
  match o with
  | .next t => some (f t)
  | .fault _ | .refused _ => none

/-- Vx, VF and PC after one operation. -/
def regsAfter (x : Nibble) (s : State) : Option (Byte × Byte × Word) :=
  view (step s) fun t => (t.readV x, t.readV 15, t.pc)

/-- PC and FAULT after one operation. -/
def faultAfter (s : State) : Option (Word × Option FaultRecord) := view (step s) fun t => (t.pc, t.fault)

/-- Three memory bytes after one operation. -/
def bytesAfter (a b c : Nat) (s : State) : Option (Byte × Byte × Byte) :=
  view (step s) fun t => (t.mem.read a, t.mem.read b, t.mem.read c)

/-- VF and some pixels after one operation. -/
def pixelsAfter (ps : List (Fin 64 × Fin 32)) (s : State) : Option (Byte × List Bool) :=
  view (step s) fun t => (t.readV 15, ps.map fun p => t.fb.pixel p.1 p.2)

/-- ST and the tone events after one operation. -/
def toneAfter (s : State) : Option (Byte × List ToneEvent) := view (step s) fun t => (t.st, t.events)

/-! ### Well-formedness: the one check refuses an ill-formed term (R71, R73) -/

theorem test_wf_refuses_sixteen_rows : (Instr.drw 0 0 16).wellFormed = false := by decide
theorem test_wf_accepts_fifteen_rows : (Instr.drw 0 0 15).wellFormed = true := by decide

/-! ### Decoding: a word of each row of R75, which is of the row, and its instruction -/

theorem test_decode_cls : 0x00E0#16 &&& 0xFFFF#16 = 0x00E0#16 ∧ decode 0x00E0#16 = some .cls := by decide
theorem test_decode_ret : 0x00EE#16 &&& 0xFFFF#16 = 0x00EE#16 ∧ decode 0x00EE#16 = some .ret := by decide
theorem test_decode_jp : 0x1ABC#16 &&& 0xF000#16 = 0x1000#16 ∧ decode 0x1ABC#16 = some (.jp 0xABC#12) := by decide
theorem test_decode_call : 0x2210#16 &&& 0xF000#16 = 0x2000#16 ∧ decode 0x2210#16 = some (.call 0x210#12) := by
  decide
theorem test_decode_seImm : 0x3113#16 &&& 0xF000#16 = 0x3000#16 ∧ decode 0x3113#16 = some (.seImm 1 0x13#8) := by
  decide
theorem test_decode_sneImm : 0x4E12#16 &&& 0xF000#16 = 0x4000#16 ∧ decode 0x4E12#16 = some (.sneImm 14 0x12#8) := by
  decide
theorem test_decode_seReg : 0x5120#16 &&& 0xF00F#16 = 0x5000#16 ∧ decode 0x5120#16 = some (.seReg 1 2) := by decide
theorem test_decode_ldImm : 0x6A05#16 &&& 0xF000#16 = 0x6000#16 ∧ decode 0x6A05#16 = some (.ldImm 10 0x05#8) := by
  decide
theorem test_decode_addImm : 0x71FF#16 &&& 0xF000#16 = 0x7000#16 ∧ decode 0x71FF#16 = some (.addImm 1 0xFF#8) := by
  decide
theorem test_decode_ldReg : 0x83F0#16 &&& 0xF00F#16 = 0x8000#16 ∧ decode 0x83F0#16 = some (.ldReg 3 15) := by decide
theorem test_decode_or : 0x8121#16 &&& 0xF00F#16 = 0x8001#16 ∧ decode 0x8121#16 = some (.or 1 2) := by decide
theorem test_decode_and : 0x8122#16 &&& 0xF00F#16 = 0x8002#16 ∧ decode 0x8122#16 = some (.and 1 2) := by decide
theorem test_decode_xor : 0x8123#16 &&& 0xF00F#16 = 0x8003#16 ∧ decode 0x8123#16 = some (.xor 1 2) := by decide
theorem test_decode_addReg : 0x80F4#16 &&& 0xF00F#16 = 0x8004#16 ∧ decode 0x80F4#16 = some (.addReg 0 15) := by
  decide
theorem test_decode_sub : 0x8F15#16 &&& 0xF00F#16 = 0x8005#16 ∧ decode 0x8F15#16 = some (.sub 15 1) := by decide
theorem test_decode_shr : 0x8236#16 &&& 0xF00F#16 = 0x8006#16 ∧ decode 0x8236#16 = some (.shr 2 3) := by decide
theorem test_decode_subn : 0x8017#16 &&& 0xF00F#16 = 0x8007#16 ∧ decode 0x8017#16 = some (.subn 0 1) := by decide
theorem test_decode_shl : 0x820E#16 &&& 0xF00F#16 = 0x800E#16 ∧ decode 0x820E#16 = some (.shl 2 0) := by decide
theorem test_decode_sneReg : 0x9120#16 &&& 0xF00F#16 = 0x9000#16 ∧ decode 0x9120#16 = some (.sneReg 1 2) := by decide
theorem test_decode_ldI : 0xA123#16 &&& 0xF000#16 = 0xA000#16 ∧ decode 0xA123#16 = some (.ldI 0x123#12) := by decide
theorem test_decode_jpV0 : 0xBFFF#16 &&& 0xF000#16 = 0xB000#16 ∧ decode 0xBFFF#16 = some (.jpV0 0xFFF#12) := by decide
theorem test_decode_rnd : 0xC40F#16 &&& 0xF000#16 = 0xC000#16 ∧ decode 0xC40F#16 = some (.rnd 4 0x0F#8) := by decide
theorem test_decode_drw : 0xDF15#16 &&& 0xF000#16 = 0xD000#16 ∧ decode 0xDF15#16 = some (.drw 15 1 5) := by decide
theorem test_decode_skp : 0xE09E#16 &&& 0xF0FF#16 = 0xE09E#16 ∧ decode 0xE09E#16 = some (.skp 0) := by decide
theorem test_decode_sknp : 0xE3A1#16 &&& 0xF0FF#16 = 0xE0A1#16 ∧ decode 0xE3A1#16 = some (.sknp 3) := by decide
theorem test_decode_ldVxDt : 0xF507#16 &&& 0xF0FF#16 = 0xF007#16 ∧ decode 0xF507#16 = some (.ldVxDt 5) := by decide
theorem test_decode_ldVxKey : 0xF30A#16 &&& 0xF0FF#16 = 0xF00A#16 ∧ decode 0xF30A#16 = some (.ldVxKey 3) := by decide
theorem test_decode_ldDtVx : 0xF515#16 &&& 0xF0FF#16 = 0xF015#16 ∧ decode 0xF515#16 = some (.ldDtVx 5) := by decide
theorem test_decode_ldStVx : 0xF118#16 &&& 0xF0FF#16 = 0xF018#16 ∧ decode 0xF118#16 = some (.ldStVx 1) := by decide
theorem test_decode_addI : 0xF21E#16 &&& 0xF0FF#16 = 0xF01E#16 ∧ decode 0xF21E#16 = some (.addI 2) := by decide
theorem test_decode_ldGlyph : 0xF029#16 &&& 0xF0FF#16 = 0xF029#16 ∧ decode 0xF029#16 = some (.ldGlyph 0) := by decide
theorem test_decode_ldBcd : 0xF033#16 &&& 0xF0FF#16 = 0xF033#16 ∧ decode 0xF033#16 = some (.ldBcd 0) := by decide
theorem test_decode_storeRegs : 0xF155#16 &&& 0xF0FF#16 = 0xF055#16 ∧ decode 0xF155#16 = some (.storeRegs 1) := by
  decide
theorem test_decode_loadRegs : 0xF265#16 &&& 0xF0FF#16 = 0xF065#16 ∧ decode 0xF265#16 = some (.loadRegs 2) := by
  decide

/-- The illegal words of V-E1 to V-E14. -/
theorem test_decode_illegal_words :
    [0x0000#16, 0x0123#16, 0x00E1#16, 0x00FF#16, 0x00EF#16, 0x5121#16, 0x8008#16, 0x800F#16, 0x9001#16, 0xE000#16,
      0xE19F#16, 0xF000#16, 0xF075#16, 0xF01F#16].map decode = List.replicate 14 none := by decide

/-- W9: the byte at the lower address is the high one. -/
theorem test_decode_bytes : decodeBytes [0x6A#8, 0x05#8, 0x77#8] = .ok (.ldImm 10 0x05#8, [0x77#8]) := by rfl
theorem test_decode_bytes_too_short : decodeBytes [0x6A#8] = .error .tooShort := by rfl
theorem test_decode_table_word : decodeTableWord 16 0x2210 = some (.call 0x210#12) := by decide

/-! ### Fetch and faults (L2.1, L2.7) -/

/-- V-E15. -/
theorem test_fetch_last_word :
    faultAfter (withBytes 0xFFE [0x12#8, 0x34#8] { State.reset with pc := 0x0FFE#16 }) = some (0x0234#16, none) := by
  decide
/-- V-E16. -/
theorem test_fetch_out_of_bounds : faultAfter { State.reset with pc := 0x0FFF#16 } =
    some (0x0FFF#16, some ⟨.outOfBoundsFetch, 0x0FFF#16, none⟩) := by decide
/-- V-E18. -/
theorem test_fetch_odd_pc : regsAfter 10 (withBytes 0x201 [0x6A#8, 0x07#8] { State.reset with pc := 0x0201#16 }) =
    some (0x07#8, 0x00#8, 0x0203#16) := by decide
/-- V-E1. -/
theorem test_illegal_instruction : faultAfter State.reset =
    some (0x0200#16, some ⟨.illegalInstruction, 0x0200#16, some 0x0000#16⟩) := by decide
/-- V-X5: a step while FAULT holds a record does nothing. -/
theorem test_latched_fault_stops :
    regsAfter 0 { start 0x6005#16 with fault := some ⟨.stackUnderflow, 0x0200#16, some 0x00EE#16⟩ } =
    some (0x00#8, 0x00#8, 0x0200#16) := by decide
/-- V-X6: a tick while FAULT holds a record counts. -/
theorem test_tick_while_faulted : view (step { State.reset with
      dt := 0x05#8, st := 0x01#8, schedule := [.tick]
      fault := some ⟨.illegalInstruction, 0x0200#16, some 0x0000#16⟩ }) (fun t => (t.dt, t.st, t.events)) =
    some (0x04#8, 0x00#8, [.stop]) := by decide
/-- V-X2: no event where ST stays above 0. -/
theorem test_tick_without_event :
    toneAfter { State.reset with st := 0x02#8, schedule := [.tick] } = some (0x01#8, []) := by decide
/-- V-X3: a timer at 0 stays at 0. -/
theorem test_tick_at_zero :
    toneAfter { State.reset with schedule := [.tick] } = some (0x00#8, []) := by decide
/-- R255: where the host may skip, `Skip` clears FAULT and passes the instruction. -/
theorem test_skip_offered :
    view (skipOp true { State.reset with fault := some ⟨.illegalInstruction, 0x0200#16, some 0x0000#16⟩ })
      (fun t => (t.pc, t.fault)) = some (0x0202#16, none) := by decide

/-! ### Reset (W7, W10, W11) -/

/-- W11. -/
theorem test_reset_image : view (step { State.reset with pc := 0x0333#16, schedule := [.reset [0xAB#8, 0xCD#8]] })
      (fun t => (t.pc, [0x200, 0x201, 0x202, 0x050, 0x1FF].map t.mem.read)) =
    some (0x0200#16, [0xAB#8, 0xCD#8, 0x00#8, 0x00#8, 0x00#8]) := by decide
/-- W10: one byte too many. -/
theorem test_reset_image_too_large : resetWith (List.replicate 3585 0#8) = .fault (.imageTooLarge 3585) := by
  rw [resetWith, List.length_replicate]
  rfl
/-- W7, P6: the second byte of a one-byte image is the zero after it. -/
theorem test_reset_one_byte_image :
    view (resetWith [0x12#8]) (fun t => t.fetch) = some (some 0x1200#16) := by decide

/-! ### Display (L2.2) -/

/-- V-D1. -/
theorem test_cls : pixelsAfter [(0, 0), (63, 31), (10, 5)]
    { start 0x00E0#16 with fb := ((Framebuffer.blank.toggle 0 0).toggle 63 31).toggle 10 5 } =
    some (0x00#8, [false, false, false]) := by decide
/-- V-D3: a collision at (0,0), which turns off. -/
theorem test_drw_collision : pixelsAfter [(0, 0), (1, 0), (4, 0), (3, 1), (1, 1), (3, 4), (0, 5)]
    { start 0xD015#16 with fb := Framebuffer.blank.toggle 0 0 } =
    some (0x01#8, [false, true, false, true, false, true, false]) := by decide
/-- V-D5: both edges wrap. -/
theorem test_drw_wraps : pixelsAfter [(62, 30), (63, 31), (0, 30), (5, 0), (6, 0), (61, 30), (62, 1)]
    (withBytes 0x300 [0xFF#8, 0xFF#8, 0xFF#8]
      (withRegs [(0, 0x3E#8), (1, 0x1E#8)] { start 0xD013#16 with i := 0x0300#16 })) =
    some (0x00#8, [true, true, true, true, false, false, false]) := by decide

/-! ### Control flow (L2.3) -/

/-- V-F1. -/
theorem test_ret : view (step { start 0x00EE#16 with sp := 1, stack := State.reset.stack.set 0 0x0206#16 })
    (fun t => (t.pc, t.sp)) = some (0x0206#16, 0) := by decide
/-- V-F2. -/
theorem test_ret_underflow : faultAfter (start 0x00EE#16) =
    some (0x0200#16, some ⟨.stackUnderflow, 0x0200#16, some 0x00EE#16⟩) := by decide
/-- V-F3. -/
theorem test_jp : faultAfter (start 0x1ABC#16) = some (0x0ABC#16, none) := by decide
/-- V-F6: the sixteenth call. -/
theorem test_call : view (step { start 0x2300#16 with sp := 15 }) (fun t => (t.pc, t.sp, t.stack.get 15)) =
    some (0x0300#16, 16, 0x0202#16) := by decide
/-- V-F7: the seventeenth call. -/
theorem test_call_overflow : faultAfter { start 0x2300#16 with sp := 16 } =
    some (0x0200#16, some ⟨.stackOverflow, 0x0200#16, some 0x2300#16⟩) := by decide
/-- V-F9, V-F10. -/
theorem test_seImm : [0x3012#16, 0x3013#16].map (fun op => faultAfter (withRegs [(0, 0x12#8)] (start op))) =
    [some (0x0204#16, none), some (0x0202#16, none)] := by decide
/-- V-F11, V-F12. -/
theorem test_sneImm : [0x4012#16, 0x4013#16].map (fun op => faultAfter (withRegs [(0, 0x12#8)] (start op))) =
    [some (0x0202#16, none), some (0x0204#16, none)] := by decide
/-- V-F13, V-F14. -/
theorem test_seReg : [0x07#8, 0x08#8].map (fun b => faultAfter (withRegs [(1, 0x07#8), (2, b)] (start 0x5120#16))) =
    [some (0x0204#16, none), some (0x0202#16, none)] := by decide
/-- V-F15. -/
theorem test_sneReg : faultAfter (withRegs [(1, 0x07#8), (2, 0x08#8)] (start 0x9120#16)) =
    some (0x0204#16, none) := by decide
/-- V-F16. -/
theorem test_sneReg_same : faultAfter (withRegs [(1, 0x07#8)] (start 0x9110#16)) = some (0x0202#16, none) := by decide
/-- R136: the largest sum, not masked to 12 bits. -/
theorem test_jpV0 : faultAfter (withRegs [(0, 0xFF#8)] (start 0xBFFF#16)) = some (0x10FE#16, none) := by decide

/-! ### Registers and arithmetic (L2.4) -/

/-- W9. -/
theorem test_ldImm : regsAfter 10 (start 0x6A05#16) = some (0x05#8, 0x00#8, 0x0202#16) := by decide
/-- R152: 0x02 + 0xFF wraps, and VF, here 0xAA, is no flag. -/
theorem test_addImm : regsAfter 1 (withRegs [(1, 0x02#8), (15, 0xAA#8)] (start 0x71FF#16)) =
    some (0x01#8, 0xAA#8, 0x0202#16) := by decide
/-- R154: a copy of VF. -/
theorem test_ldReg : regsAfter 3 (withRegs [(15, 0x01#8)] (start 0x83F0#16)) =
    some (0x01#8, 0x01#8, 0x0202#16) := by decide
/-- R156: 0xF0 OR 0x3C. -/
theorem test_or : regsAfter 1 (withRegs [(1, 0xF0#8), (2, 0x3C#8)] (start 0x8121#16)) =
    some (0xFC#8, 0x00#8, 0x0202#16) := by decide
/-- V-A6. -/
theorem test_and : regsAfter 1 (withRegs [(1, 0xF0#8), (2, 0x3C#8)] (start 0x8122#16)) =
    some (0x30#8, 0x00#8, 0x0202#16) := by decide
/-- V-A7. -/
theorem test_xor : regsAfter 1 (withRegs [(1, 0xF0#8), (2, 0x3C#8)] (start 0x8123#16)) =
    some (0xCC#8, 0x00#8, 0x0202#16) := by decide
/-- V-A13: with x = F the flag is what remains. -/
theorem test_addReg_to_vf : regsAfter 15 (withRegs [(15, 0xFF#8), (1, 0x02#8)] (start 0x8F14#16)) =
    some (0x01#8, 0x01#8, 0x0202#16) := by decide
/-- V-A14: with y = F the addend is the old VF. -/
theorem test_addReg_from_vf : regsAfter 0 (withRegs [(0, 0x10#8), (15, 0x01#8)] (start 0x80F4#16)) =
    some (0x11#8, 0x00#8, 0x0202#16) := by decide
/-- V-A16. -/
theorem test_sub_borrow : regsAfter 0 (withRegs [(0, 0x03#8), (1, 0x05#8)] (start 0x8015#16)) =
    some (0xFE#8, 0x00#8, 0x0202#16) := by decide
/-- V-A17: equal operands give flag 0. -/
theorem test_sub_equal : regsAfter 0 (withRegs [(0, 0x05#8), (1, 0x05#8)] (start 0x8015#16)) =
    some (0x00#8, 0x00#8, 0x0202#16) := by decide
/-- V-A20. -/
theorem test_shr : regsAfter 2 (withRegs [(2, 0x05#8), (3, 0xAA#8)] (start 0x8236#16)) =
    some (0x02#8, 0x01#8, 0x0202#16) := by decide
/-- V-A24. -/
theorem test_subn : regsAfter 0 (withRegs [(0, 0x03#8), (1, 0x05#8)] (start 0x8017#16)) =
    some (0x02#8, 0x01#8, 0x0202#16) := by decide
/-- V-A26. -/
theorem test_subn_equal : regsAfter 0 (withRegs [(0, 0x05#8), (1, 0x05#8)] (start 0x8017#16)) =
    some (0x00#8, 0x00#8, 0x0202#16) := by decide
/-- V-A27. -/
theorem test_shl : regsAfter 2 (withRegs [(2, 0x81#8)] (start 0x820E#16)) =
    some (0x02#8, 0x01#8, 0x0202#16) := by decide
/-- V-A31. -/
theorem test_rnd : regsAfter 4 (withInputs 0x0000#16 0xAB#8 (start 0xC40F#16)) =
    some (0x0B#8, 0x00#8, 0x0202#16) := by decide

/-! ### Index register and memory (L2.5) -/

/-- V-I1. -/
theorem test_ldI : view (step { start 0xA123#16 with i := 0xFFFF#16 }) (fun t => t.i) = some 0x0123#16 := by decide
/-- V-I3 and V-I4. -/
theorem test_addI : [0x0FFF#16, 0xFFFF#16].map (fun i =>
      view (step (withRegs [(2, 0x01#8)] { start 0xF21E#16 with i := i })) (fun t => (t.i, t.readV 15))) =
    [some (0x1000#16, 0x00#8), some (0x0000#16, 0x00#8)] := by decide
/-- V-I8: the low nibble alone. -/
theorem test_ldGlyph : view (step (withRegs [(0, 0x1A#8)] (start 0xF029#16))) (fun t => t.i) = some 0x0032#16 := by
  decide
/-- V-I9, W3. -/
theorem test_ldBcd : bytesAfter 0x300 0x301 0x302 (withRegs [(0, 0xFF#8)] { start 0xF033#16 with i := 0x0300#16 }) =
    some (0x02#8, 0x05#8, 0x05#8) := by decide
/-- V-I13: the addresses wrap. -/
theorem test_ldBcd_wraps :
    bytesAfter 0xFFF 0x000 0x001 (withRegs [(0, 0x7B#8)] { start 0xF033#16 with i := 0x0FFF#16 }) =
    some (0x01#8, 0x02#8, 0x03#8) := by decide
/-- V-I14. -/
theorem test_storeRegs :
    bytesAfter 0x300 0x301 0x302 (withRegs [(0, 0x12#8), (1, 0x0A#8)] { start 0xF155#16 with i := 0x0300#16 }) =
    some (0x12#8, 0x0A#8, 0x00#8) := by decide
/-- V-I16: sixteen registers, VF last, wrapping. -/
theorem test_storeRegs_wraps :
    bytesAfter 0xFFE 0x000 0x00D
      (withRegs [(0, 0x01#8), (2, 0x03#8), (15, 0x10#8)] { start 0xFF55#16 with i := 0x0FFE#16 }) =
    some (0x01#8, 0x03#8, 0x10#8) := by decide
/-- V-I17. -/
theorem test_loadRegs :
    view (step (withBytes 0x300 [0x01#8, 0x05#8, 0x06#8] { start 0xF265#16 with i := 0x0300#16 }))
      (fun t => (t.readV 0, t.readV 1, t.readV 2, t.i)) = some (0x01#8, 0x05#8, 0x06#8, 0x0300#16) := by decide
/-- V-I18: V0 only. -/
theorem test_loadRegs_v0 :
    view (step (withBytes 0x300 [0xEE#8, 0xDD#8] (withRegs [(1, 0x77#8)] { start 0xF065#16 with i := 0x0300#16 })))
      (fun t => (t.readV 0, t.readV 1)) = some (0xEE#8, 0x77#8) := by decide

/-! ### Keys and timers (L2.6) -/

/-- V-K1, V-K2. -/
theorem test_skp : [0x0020#16, 0x0010#16].map (fun k =>
      faultAfter (withInputs k 0#8 (withRegs [(0, 0x05#8)] (start 0xE09E#16)))) =
    [some (0x0204#16, none), some (0x0202#16, none)] := by decide
/-- V-K5: the low nibble alone. -/
theorem test_skp_low_nibble : faultAfter (withInputs 0x0020#16 0#8 (withRegs [(0, 0x15#8)] (start 0xE09E#16))) =
    some (0x0204#16, none) := by decide
/-- V-K3, V-K4. -/
theorem test_sknp : [0x0020#16, 0x0000#16].map (fun k =>
      faultAfter (withInputs k 0#8 (withRegs [(0, 0x05#8)] (start 0xE0A1#16)))) =
    [some (0x0202#16, none), some (0x0204#16, none)] := by decide
/-- V-K6. -/
theorem test_ldVxDt : regsAfter 5 { start 0xF507#16 with dt := 0x3C#8 } = some (0x3C#8, 0x00#8, 0x0202#16) := by decide
/-- V-K7: the wait. -/
theorem test_ldVxKey_waits : regsAfter 3 (withInputs 0x0000#16 0#8 (start 0xF30A#16)) =
    some (0x00#8, 0x00#8, 0x0200#16) := by decide
/-- V-K8, second step: the lowest key. -/
theorem test_ldVxKey_lowest : regsAfter 3 (withInputs 0x0088#16 0#8 (start 0xF30A#16)) =
    some (0x03#8, 0x00#8, 0x0202#16) := by decide
/-- V-K11. -/
theorem test_ldDtVx : view (step (withRegs [(5, 0x3C#8)] (start 0xF515#16))) (fun t => (t.dt, t.pc)) =
    some (0x3C#8, 0x0202#16) := by decide
/-- V-K13. -/
theorem test_ldStVx_start : toneAfter (withRegs [(1, 0x05#8)] (start 0xF118#16)) = some (0x05#8, [.start]) := by decide
/-- V-K14. -/
theorem test_ldStVx_stop : toneAfter { start 0xF118#16 with st := 0x05#8 } = some (0x00#8, [.stop]) := by decide

/-! ### Witnesses: values that meet the hypotheses of each obligation together, a clause at a time -/

/-- A fault record as V-E1 leaves it. -/
def record : FaultRecord := ⟨.illegalInstruction, 0x0200#16, some 0x0000#16⟩

/-- SamplesTo of a state without a schedule. -/
theorem test_witness_samples_held (op : Word) :
    SamplesTo (start op) { start op with rnd := .free 0, freeCount := 1 } := .inl ⟨rfl, rfl⟩
/-- SamplesTo of a state whose schedule begins with a step. -/
theorem test_witness_samples_scheduled (op : Word) : SamplesTo (withInputs 0x8000#16 0xAB#8 (start op))
    { start op with keys := 0x8000#16, rnd := .supplied 0xAB#8, schedule := [] } := .inr ⟨_, _, _, rfl, rfl⟩

theorem test_witness_DecodeEncodeRoundTrip : (Instr.drw 15 15 15).wellFormed = true ∧ Instr.ret.wellFormed = true := by
  decide
theorem test_witness_EncodeDecodeRoundTrip : decode 0xDFFF#16 = some (.drw 15 15 15) := by decide
theorem test_witness_OpcodeRowsAreDisjoint : ((0x800E#16, 0xF00F#16) : OpcodeRow) ∈ opcodeMap ∧
    OpcodeRow.matches (0x800E#16, 0xF00F#16) 0x823E#16 = true := by decide
/-- One word of each family, on both sides of its selector. -/
theorem test_witness_FamiliesDecodeOnTheirSelectors :
    [0x00E0#16, 0x00E1#16].map fieldOp4 = [0x0#4, 0x0#4] ∧ [0x5120#16, 0x5121#16].map fieldOp4 = [0x5#4, 0x5#4] ∧
    [0x9120#16, 0x9001#16].map fieldOp4 = [0x9#4, 0x9#4] ∧ [0x800E#16, 0x800F#16].map fieldOp4 = [0x8#4, 0x8#4] ∧
    [0xE09E#16, 0xE0A1#16, 0xE19F#16].map fieldOp4 = [0xE#4, 0xE#4, 0xE#4] ∧
    [0xF065#16, 0xF075#16].map fieldOp4 = [0xF#4, 0xF#4] := by decide
/-- The last fetchable address: V-E15. -/
theorem test_witness_StepRunsTheDecodedInstruction : ∃ s s' : State, s.unfaulted ∧ SamplesTo s s' ∧ s.pc = 0x0FFE#16 ∧
    decode (BitVec.ofNat 16 ((s.mem.read 0xFFE).toNat * 256 + (s.mem.read 0xFFF).toNat)) = some (.jp 0x234#12) :=
  ⟨withBytes 0xFFE [0x12#8, 0x34#8] { State.reset with pc := 0x0FFE#16 }, _, rfl, .inl ⟨rfl, rfl⟩, by decide, by decide⟩
/-- The five cases of FaultCausesAndPriority, PC = 0x0FFF, an illegal word, both stack bounds and no fault. -/
theorem test_witness_FaultCausesAndPriority : ∀ s ∈ [{ State.reset with pc := 0x0FFF#16 }, State.reset,
      { start 0x2300#16 with sp := 16 }, start 0x00EE#16, { start 0x2300#16 with sp := 15 }],
    s.unfaulted ∧ ∃ s', SamplesTo s s' := by
  simp only [List.forall_mem_cons, List.not_mem_nil, false_implies, implies_true, and_true]
  exact ⟨⟨rfl, _, .inl ⟨rfl, rfl⟩⟩, ⟨rfl, _, .inl ⟨rfl, rfl⟩⟩, ⟨rfl, _, .inl ⟨rfl, rfl⟩⟩, ⟨rfl, _, .inl ⟨rfl, rfl⟩⟩,
    ⟨rfl, _, .inl ⟨rfl, rfl⟩⟩⟩
theorem test_witness_FaultingStepCommitsNothing : ∃ s' t : State, (start 0x00EE#16).unfaulted ∧
    SamplesTo (start 0x00EE#16) s' ∧ step (start 0x00EE#16) = .next t ∧ t.fault ≠ none :=
  ⟨_, _, rfl, .inl ⟨rfl, rfl⟩, rfl, by decide⟩
/-- The three clauses: an empty schedule, a step next, a tick next. -/
theorem test_witness_LatchedFaultStopsSteps : ∃ s₁ s₂ s₃ : State,
    (s₁.fault = some record ∧ s₁.schedule = []) ∧ (s₂.fault = some record ∧ s₂.schedule = [.step 0xFFFF#16 0xFF#8]) ∧
    (s₃.fault = some record ∧ s₃.schedule = [.tick]) :=
  ⟨{ State.reset with fault := some record }, { State.reset with
      fault := some record, schedule := [.step 0xFFFF#16 0xFF#8] },
    { State.reset with fault := some record, schedule := [.tick] }, ⟨rfl, rfl⟩, ⟨rfl, rfl⟩, ⟨rfl, rfl⟩⟩
theorem test_witness_OnlyResetAndSkipClearAFault : ∃ s t : State, s.fault = some record ∧ step s = .next t ∧
    t.fault = none :=
  ⟨{ State.reset with fault := some record, schedule := [.reset []] }, _, rfl, rfl, rfl⟩
theorem test_witness_SkipPassesTheFaultingInstruction : ∃ s : State, s.schedule = [.skip] ∧ s.fault ≠ none :=
  ⟨{ State.reset with fault := some record, schedule := [.skip] }, rfl, by decide⟩
/-- For the statements about `exec i s = .next t` of one instruction. -/
theorem test_witness_InstructionsWriteOnlyTheirRow : ∃ t, exec (.drw 15 1 5) State.reset = .next t := ⟨_, rfl⟩
/-- Both clauses: an instruction that reads no key, and one that reads no random byte. -/
theorem test_witness_InputsAreReadByTheirInstructions : ∃ t u, exec (.rnd 4 0x0F#8) State.reset = .next t ∧
    exec (.ldVxKey 3) State.reset = .next u ∧
    (∀ x, Instr.rnd 4 0x0F#8 ≠ .skp x ∧ Instr.rnd 4 0x0F#8 ≠ .sknp x ∧ Instr.rnd 4 0x0F#8 ≠ .ldVxKey x) ∧
    ∀ x kk, Instr.ldVxKey 3 ≠ .rnd x kk :=
  ⟨_, _, rfl, rfl, fun _ => ⟨nofun, nofun, nofun⟩, fun _ _ => nofun⟩
/-- Each clause: `Fx33` that wraps, at its last stored address and the next one, and an instruction that stores
nothing. -/
theorem test_witness_MemoryIsReadByDrawAndLoad : ∃ t u, exec (.ldBcd 0) { State.reset with i := 0x0FFF#16 } = .next t ∧
    exec (.ldGlyph 0) State.reset = .next u ∧
    (∀ x y n, Instr.ldBcd 0 ≠ .drw x y n ∧ Instr.ldGlyph 0 ≠ .drw x y n) ∧
    (∀ x, Instr.ldBcd 0 ≠ .loadRegs x ∧ Instr.ldGlyph 0 ≠ .loadRegs x) ∧
    storesTo (.ldBcd 0) { State.reset with i := 0x0FFF#16 } 0x001 ∧
    ¬ storesTo (.ldBcd 0) { State.reset with i := 0x0FFF#16 } 0x002 ∧
    ∀ x, Instr.ldGlyph 0 ≠ .ldBcd x ∧ Instr.ldGlyph 0 ≠ .storeRegs x :=
  ⟨_, _, rfl, rfl, fun _ _ _ => ⟨nofun, nofun⟩, fun _ => ⟨nofun, nofun⟩,
    (by decide : ∃ k < 3, 0x001 = (0x0FFF + k) % 4096), (by decide : ¬ ∃ k < 3, 0x002 = (0x0FFF + k) % 4096),
    fun _ => ⟨nofun, nofun⟩⟩
/-- `Fx55` at both ends of its block, and one address past it. -/
theorem test_witness_storesTo_block :
    storesTo (.storeRegs 15) { State.reset with i := 0x0FFE#16 } 0xFFE ∧
    storesTo (.storeRegs 15) { State.reset with i := 0x0FFE#16 } 0x00D ∧
    ¬ storesTo (.storeRegs 15) { State.reset with i := 0x0FFE#16 } 0x00E :=
  ⟨(by decide : ∃ k ≤ 15, 0xFFE = (0x0FFE + k) % 4096), (by decide : ∃ k ≤ 15, 0x00D = (0x0FFE + k) % 4096),
    (by decide : ¬ ∃ k ≤ 15, 0x00E = (0x0FFE + k) % 4096)⟩
/-- Both clauses: a supplied byte and a free one. -/
theorem test_witness_RandomIsMasked : ({ State.reset with rnd := .supplied 0xAB#8 } : State).rnd = .supplied 0xAB#8 ∧
    ({ State.reset with rnd := .free 0 } : State).rnd = .free 0 := ⟨rfl, rfl⟩
/-- A start, a stop, and an operation without an edge. -/
theorem test_witness_ToneEventsAreTheEdgesOfSt : ∃ s t s' t' s'' t'' : State,
    (step s = .next t ∧ s.st = 0#8 ∧ t.st ≠ 0#8) ∧ (step s' = .next t' ∧ s'.st ≠ 0#8 ∧ t'.st = 0#8) ∧
    (step s'' = .next t'' ∧ s''.st = t''.st) ∧ (∀ image rest, s'.schedule ≠ .reset image :: rest) :=
  ⟨withRegs [(1, 0x05#8)] (start 0xF118#16), _, { State.reset with st := 0x01#8, schedule := [.tick] }, _,
    start 0x6A05#16, _, ⟨rfl, by decide, by decide⟩, ⟨rfl, by decide, by decide⟩, ⟨rfl, rfl⟩, fun _ _ => nofun⟩
/-- The largest saved address, popped. -/
theorem test_witness_PcStaysBounded : ∃ s s' t : State, s.unfaulted ∧ StackTargetsLegal s ∧ SamplesTo s s' ∧
    s.pc.toNat ≤ 0x0FFE ∧ step s = .next t ∧ t.pc = 0x1000#16 :=
  ⟨{ start 0x00EE#16 with sp := 16, stack := Vector.replicate 16 0x1000#16 }, _, _, rfl,
    (by decide : ∀ j : Fin 16, j.val < 16 → ((Vector.replicate 16 0x1000#16).get j).toNat ≤ 0x1000),
    .inl ⟨rfl, rfl⟩, by decide, rfl, rfl⟩
/-- A state with memory, a saved address and a tone on that meets the invariant. -/
theorem test_witness_EveryStepKeepsTheInvariant : ∃ s t : State, s.Inv ∧ step s = .next t ∧ s.st = 0x05#8 :=
  ⟨{ start 0x00EE#16 with
      sp := 1, stack := Vector.replicate 16 0x0206#16, st := 0x05#8, events := [.start, .stop, .start] },
    _, ⟨by decide, (by decide : ∀ j : Fin 16, j.val < 1 → ((Vector.replicate 16 0x0206#16).get j).toNat ≤ 0x1000),
      by decide⟩, rfl, rfl⟩
/-- The clauses meet at SP = 15 and 16. -/
theorem test_witness_CallPushesTheNextAddress : ∃ s s' : State, s.sp.val = 15 ∧ s.sp.val < 16 ∧ s'.sp.val = 16 :=
  ⟨{ State.reset with sp := 15 }, { State.reset with sp := 16 }, by decide⟩
/-- The clauses meet at SP = 1 and 0; SP = 16 is the other end. -/
theorem test_witness_ReturnPopsTheLastAddress : ∃ s s' s'' : State, s.sp.val = (0 : Fin 16).val + 1 ∧
    s'.sp.val = (15 : Fin 16).val + 1 ∧ s''.sp.val = 0 :=
  ⟨{ State.reset with sp := 1 }, { State.reset with sp := 16 }, State.reset, by decide⟩
theorem test_witness_ReturnUndoesCall : ∃ s t u : State, s.sp.val < 16 ∧ exec (.call 0x300#12) s = .next t ∧
    exec .ret t = .next u := ⟨{ State.reset with sp := 15 }, _, _, by decide, rfl, rfl⟩
/-- Both row counts at the ends; a covered pixel on, a covered pixel off, and a sprite that meets no pixel on. -/
theorem test_witness_DrawXorsTheSprite : 15 < 16 ∧ 0 < 16 ∧
    SpriteCovers { State.reset with fb := Framebuffer.blank.toggle 0 0 } 0 1 5 0 0 ∧
    ({ State.reset with fb := Framebuffer.blank.toggle 0 0 } : State).fb.pixel 0 0 = true ∧
    (∀ px py, SpriteCovers State.reset 0 1 5 px py → State.reset.fb.pixel px py = false) :=
  ⟨by decide, by decide, ⟨0, 0, by decide⟩, by decide, fun px py _ =>
    (by decide : ∀ px py, State.reset.fb.pixel px py = false) px py⟩
/-- V-D10. -/
theorem test_witness_DrawTwiceRestoresTheGrid : ∃ t u : State, 5 < 16 ∧ exec (.drw 0 1 5) State.reset = .next t ∧
    (t.readV 0 = State.reset.readV 0 ∧ t.readV 1 = State.reset.readV 1 ∧ t.i = State.reset.i ∧
      t.mem = State.reset.mem ∧ t.fb = t.fb) ∧
    exec (.drw 0 1 5) t = .next u := ⟨_, _, by decide, rfl, ⟨by decide, by decide, rfl, rfl, rfl⟩, rfl⟩
/-- V-I16, the block that wraps. -/
theorem test_witness_LoadAfterStoreGivesTheRegistersBack : ∃ t t' u : State,
    exec (.storeRegs 15) { State.reset with i := 0x0FFE#16 } = .next t ∧ t'.mem = t.mem ∧ t'.i = t.i ∧
    exec (.loadRegs 15) t' = .next u := ⟨_, _, _, rfl, rfl, rfl, rfl⟩
/-- P5, at the last address an instruction can stand at. -/
theorem test_witness_StoredInstructionIsExecuted : ∃ s t u u' : State, 1 ≤ (1 : Nibble).val ∧ s.i.toNat = 0x0FFE ∧
    exec (.storeRegs 1) s = .next t ∧ u.mem = t.mem ∧ u.pc = s.i ∧ u.unfaulted ∧ SamplesTo u u' ∧
    decode (BitVec.ofNat 16 ((s.readV 0).toNat * 256 + (s.readV 1).toNat)) = some (.jp 0x20A#12) :=
  let s := withRegs [(0, 0x12#8), (1, 0x0A#8)] { State.reset with i := 0x0FFE#16 }
  let t := ({ s with mem := Memory.storeEA s.i 0 (s.regBlock 1) s.mem } : State).advance
  ⟨s, t, { t with pc := s.i }, _, by decide, by decide, rfl, rfl, rfl, rfl, .inl ⟨rfl, rfl⟩, by decide⟩
/-- Both clauses, the second at the lowest and the highest key. -/
theorem test_witness_KeyWaitTakesTheLowestKey : ∃ s s' s'' : State, s.keys = 0#16 ∧
    (s'.keys.getLsbD 0 = true ∧ ∀ j < 0, s'.keys.getLsbD j = false) ∧
    (s''.keys.getLsbD 15 = true ∧ ∀ j < 15, s''.keys.getLsbD j = false) :=
  ⟨State.reset, { State.reset with keys := 0xFFFF#16 }, { State.reset with keys := 0x8000#16 }, by decide⟩
/-- The edge up, the edge down, and both ways of no edge. -/
theorem test_witness_SoundTimerWriteSignalsTheEdge :
    (State.reset.st = 0#8 ∧ (withRegs [(1, 0x05#8)] State.reset).readV 1 ≠ 0#8) ∧
    (({ State.reset with st := 0x05#8 } : State).st ≠ 0#8 ∧ State.reset.readV 1 = 0#8) ∧
    (State.reset.st = 0#8 ↔ State.reset.readV 1 = 0#8) ∧
    (({ withRegs [(1, 0x07#8)] State.reset with st := 0x05#8 } : State).st = 0#8 ↔
      (withRegs [(1, 0x07#8)] State.reset).readV 1 = 0#8) := by decide
theorem test_witness_TickCountsTheTimersDown : ∃ s : State, s.schedule = [.tick] ∧ s.st = 1#8 :=
  ⟨{ State.reset with schedule := [.tick], st := 1#8 }, rfl, rfl⟩
/-- W10: the clauses meet at 3584 and 3585 bytes. -/
theorem test_witness_ResetLoadsTheImage : ∃ (s s' : State) (image image' : List Byte),
    s.schedule = [.reset image] ∧ image.length = 3584 ∧ s'.schedule = [.reset image'] ∧ image'.length = 3585 :=
  ⟨{ State.reset with schedule := [.reset (List.replicate 3584 0#8)] },
    { State.reset with schedule := [.reset (List.replicate 3585 0#8)] }, _, _, rfl, List.length_replicate, rfl,
    List.length_replicate⟩
theorem test_witness_PlacedWordRunsNext : decodeTableWord 16 0xFF65 = some (.loadRegs 15) := by decide
/-- A byte of a glyph, and one past the glyphs. -/
theorem test_witness_ResetState : 79 < Config.glyphTable.length ∧ 80 ≤ 80 := by decide
theorem test_witness_MemoryIsPlainStorage : (0x0FFF : Nat) ≠ 0 := by decide

end Sys2Proof.Tests
end

section
/-! The obligations of 20_memory.md. -/

namespace Sys2Proof.Machine

/-- Settles O41: both clauses are `Memory.read_write`, at the written address and away from it. -/
theorem memoryIsPlainStorage : Obligations.MemoryIsPlainStorage := by
  intro m a a' b
  constructor
  · rw [Memory.read_write, if_pos rfl]
  · intro hne
    rw [Memory.read_write, if_neg hne]

end Sys2Proof.Machine
end

section
/-! The obligations of 30_encoding.md. -/

namespace Sys2Proof

/-! ### Fields as numbers (R72) -/

theorem fieldOp4_toNat (op : Word) : (fieldOp4 op).toNat = op.toNat / 2 ^ 12 := by
  have := op.isLt
  rw [fieldOp4, BitVec.extractLsb'_toNat, Nat.shiftRight_eq_div_pow]
  omega

theorem fieldX_val (op : Word) : (fieldX op).val = op.toNat / 2 ^ 8 % 2 ^ 4 := by
  simp [fieldX, Nat.shiftRight_eq_div_pow]

theorem fieldY_val (op : Word) : (fieldY op).val = op.toNat / 2 ^ 4 % 2 ^ 4 := by
  simp [fieldY, Nat.shiftRight_eq_div_pow]

theorem fieldN_toNat (op : Word) : (fieldN op).toNat = op.toNat % 2 ^ 4 := by
  rw [fieldN, BitVec.extractLsb'_toNat, Nat.shiftRight_zero]

theorem fieldKK_toNat (op : Word) : (fieldKK op).toNat = op.toNat % 2 ^ 8 := by
  rw [fieldKK, BitVec.extractLsb'_toNat, Nat.shiftRight_zero]

theorem fieldNNN_toNat (op : Word) : (fieldNNN op).toNat = op.toNat % 2 ^ 12 := by
  rw [fieldNNN, BitVec.extractLsb'_toNat, Nat.shiftRight_zero]

/-- A word is determined by its leading nibble and `nnn` (R71). -/
theorem eq_packNNN_iff (op : Word) (o : BitVec 4) (nnn : Addr) :
    op = packNNN o nnn ↔ fieldOp4 op = o ∧ fieldNNN op = nnn := by
  constructor
  · rintro rfl
    exact ⟨fieldOp4_packNNN o nnn, fieldNNN_packNNN o nnn⟩
  · rintro ⟨rfl, rfl⟩
    exact (packNNN_fields op).symm

/-! ### The families with a secondary selector (R74, R76 to R78) -/

theorem decode_family0 {op : Word} (h : fieldOp4 op = 0x0#4) : decode op = decodeFamily0 op := by simp [decode, h]
theorem decode_family5 {op : Word} (h : fieldOp4 op = 0x5#4) : decode op = decodeFamily5 op := by simp [decode, h]
theorem decode_family8 {op : Word} (h : fieldOp4 op = 0x8#4) : decode op = decodeFamily8 op := by simp [decode, h]
theorem decode_family9 {op : Word} (h : fieldOp4 op = 0x9#4) : decode op = decodeFamily9 op := by simp [decode, h]
theorem decode_familyE {op : Word} (h : fieldOp4 op = 0xE#4) : decode op = decodeFamilyE op := by simp [decode, h]
theorem decode_familyF {op : Word} (h : fieldOp4 op = 0xF#4) : decode op = decodeFamilyF op := by simp [decode, h]

theorem decodeFamily0_selector (op : Word) :
    (decodeFamily0 op = some .cls ↔ fieldNNN op = 0x0E0#12) ∧
    (decodeFamily0 op = some .ret ↔ fieldNNN op = 0x0EE#12) ∧
    (decodeFamily0 op = none ↔ fieldNNN op ≠ 0x0E0#12 ∧ fieldNNN op ≠ 0x0EE#12) := by
  unfold decodeFamily0
  split <;> simp_all

theorem decodeFamily5_selector (op : Word) :
    ((∃ x y, decodeFamily5 op = some (.seReg x y)) ↔ fieldN op = 0x0#4) ∧
    (decodeFamily5 op = none ↔ fieldN op ≠ 0x0#4) := by
  unfold decodeFamily5
  split <;> simp_all

theorem decodeFamily9_selector (op : Word) :
    ((∃ x y, decodeFamily9 op = some (.sneReg x y)) ↔ fieldN op = 0x0#4) ∧
    (decodeFamily9 op = none ↔ fieldN op ≠ 0x0#4) := by
  unfold decodeFamily9
  split <;> simp_all

theorem decodeFamily8_eq_none (op : Word) : decodeFamily8 op = none ↔
    fieldN op ∉ [0x0#4, 0x1#4, 0x2#4, 0x3#4, 0x4#4, 0x5#4, 0x6#4, 0x7#4, 0xE#4] := by
  unfold decodeFamily8
  split <;> simp_all

theorem decodeFamilyE_selector (op : Word) :
    ((∃ x, decodeFamilyE op = some (.skp x)) ↔ fieldKK op = 0x9E#8) ∧
    ((∃ x, decodeFamilyE op = some (.sknp x)) ↔ fieldKK op = 0xA1#8) ∧
    (decodeFamilyE op = none ↔ fieldKK op ≠ 0x9E#8 ∧ fieldKK op ≠ 0xA1#8) := by
  unfold decodeFamilyE
  split <;> simp_all

theorem decodeFamilyF_eq_none (op : Word) : decodeFamilyF op = none ↔
    fieldKK op ∉ [0x07#8, 0x0A#8, 0x15#8, 0x18#8, 0x1E#8, 0x29#8, 0x33#8, 0x55#8, 0x65#8] := by
  unfold decodeFamilyF
  split <;> simp_all

/-- The nine selectors of family 8 leave the seven of R77. -/
theorem illegal_n_of_family8 : ∀ n : BitVec 4,
    n ∉ [0x0#4, 0x1#4, 0x2#4, 0x3#4, 0x4#4, 0x5#4, 0x6#4, 0x7#4, 0xE#4] ↔
      n.toNat ∈ [0x8, 0x9, 0xA, 0xB, 0xC, 0xD, 0xF] := by
  decide

/-! ### A word that decodes is the word of its instruction (R75) -/

theorem encode_of_decodeFamily0 {op : Word} {i : Instr} (h4 : fieldOp4 op = 0x0#4) (h : decodeFamily0 op = some i) :
    encode i = op := by
  unfold decodeFamily0 at h
  split at h <;> cases h
  all_goals simpa [encode, *] using packNNN_fields op

theorem encode_of_decodeFamily5 {op : Word} {i : Instr} (h4 : fieldOp4 op = 0x5#4) (h : decodeFamily5 op = some i) :
    encode i = op := by
  unfold decodeFamily5 at h
  split at h
  case h_1 hn =>
    cases h
    simpa [encode, h4, hn] using packXYN_fields op
  case h_2 => cases h

theorem encode_of_decodeFamily8 {op : Word} {i : Instr} (h4 : fieldOp4 op = 0x8#4) (h : decodeFamily8 op = some i) :
    encode i = op := by
  unfold decodeFamily8 at h
  split at h <;> cases h
  all_goals simpa [encode, *] using packXYN_fields op

theorem encode_of_decodeFamily9 {op : Word} {i : Instr} (h4 : fieldOp4 op = 0x9#4) (h : decodeFamily9 op = some i) :
    encode i = op := by
  unfold decodeFamily9 at h
  split at h
  case h_1 hn =>
    cases h
    simpa [encode, h4, hn] using packXYN_fields op
  case h_2 => cases h

theorem encode_of_decodeFamilyE {op : Word} {i : Instr} (h4 : fieldOp4 op = 0xE#4) (h : decodeFamilyE op = some i) :
    encode i = op := by
  unfold decodeFamilyE at h
  split at h <;> cases h
  all_goals simpa [encode, *] using packXKK_fields op

theorem encode_of_decodeFamilyF {op : Word} {i : Instr} (h4 : fieldOp4 op = 0xF#4) (h : decodeFamilyF op = some i) :
    encode i = op := by
  unfold decodeFamilyF at h
  split at h <;> cases h
  all_goals simpa [encode, *] using packXKK_fields op

theorem eq_0xF_of_notMem : ∀ o : BitVec 4,
    o ∉ [0x0#4, 0x1#4, 0x2#4, 0x3#4, 0x4#4, 0x5#4, 0x6#4, 0x7#4, 0x8#4, 0x9#4, 0xA#4, 0xB#4, 0xC#4, 0xD#4, 0xE#4] →
      o = 0xF#4 := by
  decide

/-- Encoding undoes decoding: the case split is the decoder's, one layout of R71 for each group of families. -/
theorem encode_of_decode {op : Word} {i : Instr} (h : decode op = some i) : encode i = op := by
  unfold decode at h
  split at h
  case h_1 h4 => exact encode_of_decodeFamily0 h4 h
  case h_2 h4 | h_3 h4 | h_11 h4 | h_12 h4 =>
    cases h
    simpa [encode, h4] using packNNN_fields op
  case h_4 h4 | h_5 h4 | h_7 h4 | h_8 h4 | h_13 h4 =>
    cases h
    simpa [encode, h4] using packXKK_fields op
  case h_6 h4 => exact encode_of_decodeFamily5 h4 h
  case h_9 h4 => exact encode_of_decodeFamily8 h4 h
  case h_10 h4 => exact encode_of_decodeFamily9 h4 h
  case h_14 h4 =>
    cases h
    simpa [encode, h4] using packXYN_fields op
  case h_15 h4 => exact encode_of_decodeFamilyE h4 h
  case h_16 h4 => exact encode_of_decodeFamilyF (eq_0xF_of_notMem _ (by simp_all)) h

/-! ### The rows of the opcode map and their instructions (R75) -/

/-- The opcode map with the instruction column: each row and what its words stand for, on their fields (R75). -/
def rowMeanings : List (OpcodeRow × (Word → Instr)) :=
  [((0x00E0#16, 0xFFFF#16), fun _ => .cls), ((0x00EE#16, 0xFFFF#16), fun _ => .ret),
   ((0x1000#16, 0xF000#16), fun op => .jp (fieldNNN op)), ((0x2000#16, 0xF000#16), fun op => .call (fieldNNN op)),
   ((0x3000#16, 0xF000#16), fun op => .seImm (fieldX op) (fieldKK op)),
   ((0x4000#16, 0xF000#16), fun op => .sneImm (fieldX op) (fieldKK op)),
   ((0x5000#16, 0xF00F#16), fun op => .seReg (fieldX op) (fieldY op)),
   ((0x6000#16, 0xF000#16), fun op => .ldImm (fieldX op) (fieldKK op)),
   ((0x7000#16, 0xF000#16), fun op => .addImm (fieldX op) (fieldKK op)),
   ((0x8000#16, 0xF00F#16), fun op => .ldReg (fieldX op) (fieldY op)),
   ((0x8001#16, 0xF00F#16), fun op => .or (fieldX op) (fieldY op)),
   ((0x8002#16, 0xF00F#16), fun op => .and (fieldX op) (fieldY op)),
   ((0x8003#16, 0xF00F#16), fun op => .xor (fieldX op) (fieldY op)),
   ((0x8004#16, 0xF00F#16), fun op => .addReg (fieldX op) (fieldY op)),
   ((0x8005#16, 0xF00F#16), fun op => .sub (fieldX op) (fieldY op)),
   ((0x8006#16, 0xF00F#16), fun op => .shr (fieldX op) (fieldY op)),
   ((0x8007#16, 0xF00F#16), fun op => .subn (fieldX op) (fieldY op)),
   ((0x800E#16, 0xF00F#16), fun op => .shl (fieldX op) (fieldY op)),
   ((0x9000#16, 0xF00F#16), fun op => .sneReg (fieldX op) (fieldY op)),
   ((0xA000#16, 0xF000#16), fun op => .ldI (fieldNNN op)), ((0xB000#16, 0xF000#16), fun op => .jpV0 (fieldNNN op)),
   ((0xC000#16, 0xF000#16), fun op => .rnd (fieldX op) (fieldKK op)),
   ((0xD000#16, 0xF000#16), fun op => .drw (fieldX op) (fieldY op) (fieldN op).toNat),
   ((0xE09E#16, 0xF0FF#16), fun op => .skp (fieldX op)), ((0xE0A1#16, 0xF0FF#16), fun op => .sknp (fieldX op)),
   ((0xF007#16, 0xF0FF#16), fun op => .ldVxDt (fieldX op)), ((0xF00A#16, 0xF0FF#16), fun op => .ldVxKey (fieldX op)),
   ((0xF015#16, 0xF0FF#16), fun op => .ldDtVx (fieldX op)), ((0xF018#16, 0xF0FF#16), fun op => .ldStVx (fieldX op)),
   ((0xF01E#16, 0xF0FF#16), fun op => .addI (fieldX op)), ((0xF029#16, 0xF0FF#16), fun op => .ldGlyph (fieldX op)),
   ((0xF033#16, 0xF0FF#16), fun op => .ldBcd (fieldX op)), ((0xF055#16, 0xF0FF#16), fun op => .storeRegs (fieldX op)),
   ((0xF065#16, 0xF0FF#16), fun op => .loadRegs (fieldX op))]

theorem OpcodeRow.matches_iff (row : OpcodeRow) (op : Word) : row.matches op = true ↔ op &&& row.2 = row.1 := by
  simp [OpcodeRow.matches]

theorem rowMeanings_rows : rowMeanings.map Prod.fst = opcodeMap := rfl

end Sys2Proof

namespace Sys2Proof.Machine

theorem encodes_FFFF {p : Word} {i : Instr} (h : decode p = some i) : Encodes 0xFFFF#16 p fun _ => i := by
  intro op hop
  rw [show (0xFFFF#16 : Word) = BitVec.allOnes 16 by decide, BitVec.and_allOnes] at hop
  rw [hop, h]

theorem encodes_F000 (o : BitVec 4) {f : Word → Instr} (h : ∀ op, fieldOp4 op = o → decode op = some (f op)) :
    Encodes 0xF000#16 (packNNN o 0#12) f :=
  fun op hop => h op ((masked_F000 op o).mp hop)

theorem encodes_F00F (o n : BitVec 4) {f : Word → Instr}
    (h : ∀ op, fieldOp4 op = o → fieldN op = n → decode op = some (f op)) :
    Encodes 0xF00F#16 (packXYN o 0 0 n) f := by
  intro op hop
  obtain ⟨h4, hn⟩ := (masked_F00F op o n).mp hop
  exact h op h4 hn

theorem encodes_F0FF (o : BitVec 4) (kk : Byte) {f : Word → Instr}
    (h : ∀ op, fieldOp4 op = o → fieldKK op = kk → decode op = some (f op)) :
    Encodes 0xF0FF#16 (packXKK o 0 kk) f := by
  intro op hop
  obtain ⟨h4, hkk⟩ := (masked_F0FF op o kk).mp hop
  exact h op h4 hkk

/-- Every row's words decode to the row's instruction, by the fields the row's mask selects (R74, R75). -/
theorem rowMeanings_encodes : ∀ e ∈ rowMeanings, Encodes e.1.2 e.1.1 e.2 := by
  simp only [rowMeanings, List.forall_mem_cons, List.not_mem_nil, false_implies, implies_true, and_true]
  refine ⟨encodes_FFFF ?_, encodes_FFFF ?_, encodes_F000 0x1#4 ?_, encodes_F000 0x2#4 ?_, encodes_F000 0x3#4 ?_,
    encodes_F000 0x4#4 ?_, encodes_F00F 0x5#4 0x0#4 ?_, encodes_F000 0x6#4 ?_, encodes_F000 0x7#4 ?_,
    encodes_F00F 0x8#4 0x0#4 ?_, encodes_F00F 0x8#4 0x1#4 ?_, encodes_F00F 0x8#4 0x2#4 ?_,
    encodes_F00F 0x8#4 0x3#4 ?_, encodes_F00F 0x8#4 0x4#4 ?_, encodes_F00F 0x8#4 0x5#4 ?_,
    encodes_F00F 0x8#4 0x6#4 ?_, encodes_F00F 0x8#4 0x7#4 ?_, encodes_F00F 0x8#4 0xE#4 ?_,
    encodes_F00F 0x9#4 0x0#4 ?_, encodes_F000 0xA#4 ?_, encodes_F000 0xB#4 ?_, encodes_F000 0xC#4 ?_,
    encodes_F000 0xD#4 ?_, encodes_F0FF 0xE#4 0x9E#8 ?_, encodes_F0FF 0xE#4 0xA1#8 ?_, encodes_F0FF 0xF#4 0x07#8 ?_,
    encodes_F0FF 0xF#4 0x0A#8 ?_, encodes_F0FF 0xF#4 0x15#8 ?_, encodes_F0FF 0xF#4 0x18#8 ?_,
    encodes_F0FF 0xF#4 0x1E#8 ?_, encodes_F0FF 0xF#4 0x29#8 ?_, encodes_F0FF 0xF#4 0x33#8 ?_,
    encodes_F0FF 0xF#4 0x55#8 ?_, encodes_F0FF 0xF#4 0x65#8 ?_⟩
  · rfl
  · rfl
  all_goals
    intros
    simp [decode, decodeFamily5, decodeFamily8, decodeFamily9, decodeFamilyE, decodeFamilyF, *]

open Laws in
/-- The word of an instruction is of a row of the map, the instruction's own (R75). -/
theorem encode_matchesRow (i : Instr) : MatchesRow.Statement i := by
  cases i
  exacts [MatchesRow.cls, MatchesRow.ret, MatchesRow.jp _, MatchesRow.call _, MatchesRow.seImm _ _,
    MatchesRow.sneImm _ _, MatchesRow.seReg _ _, MatchesRow.ldImm _ _, MatchesRow.addImm _ _, MatchesRow.ldReg _ _,
    MatchesRow.or _ _, MatchesRow.and _ _, MatchesRow.xor _ _, MatchesRow.addReg _ _, MatchesRow.sub _ _,
    MatchesRow.shr _ _, MatchesRow.subn _ _, MatchesRow.shl _ _, MatchesRow.sneReg _ _, MatchesRow.ldI _,
    MatchesRow.jpV0 _, MatchesRow.rnd _ _, MatchesRow.drw _ _ _, MatchesRow.skp _, MatchesRow.sknp _,
    MatchesRow.ldVxDt _, MatchesRow.ldVxKey _, MatchesRow.ldDtVx _, MatchesRow.ldStVx _, MatchesRow.addI _,
    MatchesRow.ldGlyph _, MatchesRow.ldBcd _, MatchesRow.storeRegs _, MatchesRow.loadRegs _]

/-- A word of a row of the map decodes (R75). -/
theorem exists_decode_of_row {op : Word} {row : OpcodeRow} (hrow : row ∈ opcodeMap) (h : row.matches op = true) :
    ∃ i, decode op = some i := by
  rw [← rowMeanings_rows] at hrow
  obtain ⟨e, he, rfl⟩ := List.mem_map.mp hrow
  exact ⟨_, rowMeanings_encodes e he op ((OpcodeRow.matches_iff _ op).mp h)⟩

/-- A word that decodes is of a row of the map (R75, R80). -/
theorem exists_row_of_decode {op : Word} {i : Instr} (h : decode op = some i) :
    ∃ row ∈ opcodeMap, row.matches op = true := by
  obtain ⟨hmatch, hrow⟩ := encode_matchesRow i
  rw [encode_of_decode h] at hmatch
  exact ⟨_, hrow, (OpcodeRow.matches_iff _ op).mpr hmatch⟩

theorem decode_eq_none_iff (op : Word) : decode op = none ↔ ∀ row ∈ opcodeMap, row.matches op = false := by
  constructor
  · intro hnone row hrow
    by_contra hmatch
    obtain ⟨i, hi⟩ := exists_decode_of_row hrow (Bool.not_eq_false _ ▸ hmatch)
    simp [hnone] at hi
  · intro hrows
    by_contra hsome
    obtain ⟨i, hi⟩ := Option.ne_none_iff_exists'.mp hsome
    obtain ⟨row, hrow, hmatch⟩ := exists_row_of_decode hi
    simp [hrows row hrow] at hmatch

/-- Settles O2: the 34 rows are those of `rowMeanings`, and a word decodes exactly when it is of a row, one way by the
rows and the other by `encode_of_decode`. -/
theorem decodeFollowsTheOpcodeMap : Obligations.DecodeFollowsTheOpcodeMap := by
  have hrows := rowMeanings_encodes
  simp only [rowMeanings, List.forall_mem_cons, List.not_mem_nil, false_implies, implies_true, and_true] at hrows
  simpa only [Obligations.DecodeFollowsTheOpcodeMap, and_assoc] using And.intro hrows decode_eq_none_iff

/-! ### The families and their selectors (R76, R77, R78) -/

/-- The two shifts read Vx alone (R77). -/
theorem exec_shifts_ignore_y (x y y' : Nibble) (s : State) :
    exec (.shr x y) s = exec (.shr x y') s ∧ exec (.shl x y) s = exec (.shl x y') s :=
  ⟨rfl, rfl⟩

/-- Settles O4: each family is its selector lemma, with the selector read as a number. -/
theorem familiesDecodeOnTheirSelectors : Obligations.FamiliesDecodeOnTheirSelectors := by
  refine ⟨fun op h4 => ?_, fun op h4 => ?_, fun op h4 => ?_, fun op h4 => ?_, exec_shifts_ignore_y, fun x y => ?_,
    fun op h4 => ?_, fun op h4 => ?_⟩
  · have hcls : op = 0x00E0#16 ↔ fieldNNN op = 0x0E0#12 :=
      (eq_packNNN_iff op 0x0#4 0x0E0#12).trans (and_iff_right h4)
    have hret : op = 0x00EE#16 ↔ fieldNNN op = 0x0EE#12 :=
      (eq_packNNN_iff op 0x0#4 0x0EE#12).trans (and_iff_right h4)
    rw [decode_family0 h4, Ne, Ne, hcls, hret]
    exact decodeFamily0_selector op
  · simpa [decode_family5 h4, BitVec.toNat_eq] using decodeFamily5_selector op
  · simpa [decode_family9 h4, BitVec.toNat_eq] using decodeFamily9_selector op
  · rw [decode_family8 h4, decodeFamily8_eq_none, illegal_n_of_family8]
  · constructor
    · simp [decode_family8, decodeFamily8]
    · simp [decode_family8, decodeFamily8]
  · rw [decode_familyE h4]
    exact decodeFamilyE_selector op
  · rw [decode_familyF h4, decodeFamilyF_eq_none]
    simp [BitVec.toNat_eq]

/-- Settles O1: one lemma for each field, and the shifts by `exec_shifts_ignore_y`. -/
theorem fieldsAreTheirBits : Obligations.FieldsAreTheirBits := by
  refine ⟨fun op => ?_, exec_shifts_ignore_y⟩
  exact ⟨fieldX_val op, fieldY_val op, fieldN_toNat op, fieldKK_toNat op, fieldNNN_toNat op, fieldOp4_toNat op⟩

end Sys2Proof.Machine
end

section
/-! The obligations of 40_display.md. -/

namespace Sys2Proof.Machine

/-- Writing the grid and advancing PC leaves every part but the framebuffer as it was (R22). -/
theorem unchanged_of_fb_written (s : State) (fb : Framebuffer) :
    Unchanged [.fb] s { s with fb := fb }.advance := by
  intro p hp
  cases p
  case fb => exact absurd (List.mem_singleton_self _) hp
  all_goals simp [Part.same, State.readV]

/-- Settles O32: `cls` has one word (R75), and its next state is the blank grid at PC + 2 (R89, R102). -/
theorem clearTurnsEveryPixelOff : Obligations.ClearTurnsEveryPixelOff := by
  refine ⟨encodes_FFFF rfl, fun s => ⟨{ s with fb := Framebuffer.blank }.advance, rfl, ?_⟩⟩
  exact ⟨Framebuffer.pixel_blank, State.advance_pc _, unchanged_of_fb_written s Framebuffer.blank⟩

end Sys2Proof.Machine
end

section
/-! The obligations of 41_flow.md. -/

namespace Sys2Proof.Machine

/-- A skip writes PC alone (R126). -/
theorem unchanged_skipIf (s : State) (c : Bool) : Unchanged [] s (s.skipIf c) := by
  intro p _
  cases p
  all_goals simp [Part.same]

/-- A skip on a test that decides `p` skips when `p` holds (R126). -/
theorem skipsWhen_skipIf (s : State) {c : Bool} {p : Prop} (h : c = true ↔ p) : SkipsWhen s p (s.skipIf c) := by
  refine ⟨fun hp => ?_, fun hp => ?_, unchanged_skipIf s c⟩
  · rw [State.skipIf_pc, if_pos (h.mpr hp)]
  · rw [State.skipIf_pc, if_neg (mt h.mp hp)]

/-- Settles O31: each encoding is its row's, by the fields that the row's mask selects, and each instruction is a skip
on the Boolean test of its comparison. -/
theorem registerSkips : Obligations.RegisterSkips := by
  refine ⟨⟨encodes_F000 0x3#4 fun op h4 => ?_, fun s x kk => ⟨_, rfl, skipsWhen_skipIf s beq_iff_eq⟩⟩,
    ⟨encodes_F000 0x4#4 fun op h4 => ?_, fun s x kk => ⟨_, rfl, skipsWhen_skipIf s bne_iff_ne⟩⟩,
    ⟨encodes_F00F 0x5#4 0x0#4 fun op h4 hn => ?_, fun s x y => ⟨_, rfl, skipsWhen_skipIf s beq_iff_eq⟩⟩,
    ⟨encodes_F00F 0x9#4 0x0#4 fun op h4 hn => ?_, fun s x y => ⟨_, rfl, skipsWhen_skipIf s bne_iff_ne⟩⟩⟩
  · simp [decode, h4]
  · simp [decode, h4]
  · simp [decode_family5 h4, decodeFamily5, hn]
  · simp [decode_family9 h4, decodeFamily9, hn]

end Sys2Proof.Machine
end

section
/-! The obligations of 42_alu.md. -/

namespace Sys2Proof.Machine

/-- Writing Vx and advancing PC leaves every part but the registers as it was (R22). -/
theorem unchanged_of_v_written (s : State) (x : Nibble) (b : Byte) : Unchanged [.v] s (s.writeV x b).advance := by
  intro p hp
  cases p
  case v => exact absurd (List.mem_singleton_self _) hp
  all_goals simp [Part.same]

/-- The next state of `finishV`, the shared ending of the instructions of this family that write no flag (R89). -/
theorem writesVx_writeV (s : State) (x : Nibble) (b : Byte) : WritesVx s x b (s.writeV x b).advance := by
  refine ⟨?_, fun r hr => ?_, by simp, unchanged_of_v_written s x b⟩
  · rw [State.readV_advance, State.readV_writeV, if_pos rfl]
  · rw [State.readV_advance, State.readV_writeV, if_neg hr]

/-- Settles O22: the encodings are rows of the opcode map (O2); each instruction ends in `finishV`, and the bits of a
logical result are those of the library. -/
theorem loadsAndLogic : Obligations.LoadsAndLogic := by
  obtain ⟨-, -, -, -, -, -, -, hldImm, -, hldReg, hor, hand, hxor, -⟩ := decodeFollowsTheOpcodeMap
  refine ⟨⟨hldImm, fun s x kk => ?_⟩, ⟨hldReg, fun s x y => ?_⟩, ⟨hor, fun s x y => ?_⟩, ⟨hand, fun s x y => ?_⟩,
    ⟨hxor, fun s x y => ?_⟩⟩
  · exact ⟨_, rfl, writesVx_writeV s x kk⟩
  · exact ⟨_, rfl, writesVx_writeV s x (s.readV y)⟩
  · exact ⟨_, rfl, _, writesVx_writeV s x (s.readV x ||| s.readV y), fun _ _ => BitVec.getLsbD_or⟩
  · exact ⟨_, rfl, _, writesVx_writeV s x (s.readV x &&& s.readV y), fun _ _ => BitVec.getLsbD_and⟩
  · exact ⟨_, rfl, _, writesVx_writeV s x (s.readV x ^^^ s.readV y), fun _ _ => BitVec.getLsbD_xor⟩

/-- Settles O23: the encoding is a row of the opcode map (O2), and the byte written is the sum of two bytes, which
wraps at 256. -/
theorem addImmediateWraps : Obligations.AddImmediateWraps := by
  obtain ⟨-, -, -, -, -, -, -, -, haddImm, -⟩ := decodeFollowsTheOpcodeMap
  exact ⟨haddImm, fun s x kk => ⟨_, rfl, _, writesVx_writeV s x (s.readV x + kk), BitVec.toNat_add _ _⟩⟩

end Sys2Proof.Machine
end

section
/-! The obligations of 43_index_memory.md. -/

namespace Sys2Proof.Machine

/-- Writing I and advancing PC leaves every part but I as it was (R22). -/
theorem unchanged_of_i_written (s : State) (w : Word) : Unchanged [.i] s (s.setI w).advance := by
  intro p hp
  cases p
  case i => exact absurd (List.mem_singleton_self _) hp
  all_goals simp [Part.same]

/-- Settles O35: `Annn` is the row that the first digit selects (R75), and its next state holds nnn, zero-extended, in I
at PC + 2 (R89, R192). -/
theorem loadIndex : Obligations.LoadIndex := by
  refine ⟨encodes_F000 0xA#4 fun op h4 => ?_, fun s nnn => ⟨(s.setI (zextAddr nnn)).advance, rfl, ?_⟩⟩
  · simp [decode, h4]
  · exact ⟨zextAddr_toNat nnn, State.advance_pc _, unchanged_of_i_written s (zextAddr nnn)⟩

end Sys2Proof.Machine
end

section
/-! The obligations of 44_keys_timers.md. -/

namespace Sys2Proof.Machine

/-- Writing DT and advancing PC leaves every part but DT as it was (R22). -/
theorem unchanged_of_dt_written (s : State) (b : Byte) : Unchanged [.dt] s (s.setDt b).advance := by
  intro p hp
  cases p
  case dt => exact absurd (List.mem_singleton_self _) hp
  all_goals simp [Part.same]

/-- Settles O45: each encoding is its row's, by the `kk` that selects in family F (R78); `Fx07` ends as every write of
Vx does, and `Fx15` holds Vx in DT at PC + 2 (R89, R224, R228). -/
theorem delayTimerMoves : Obligations.DelayTimerMoves := by
  refine ⟨⟨encodes_F0FF 0xF#4 0x07#8 fun op h4 hkk => ?_, fun s x => ⟨_, rfl, writesVx_writeV s x s.dt⟩⟩,
    ⟨encodes_F0FF 0xF#4 0x15#8 fun op h4 hkk => ?_, fun s x => ⟨(s.setDt (s.readV x)).advance, rfl, ?_⟩⟩⟩
  · simp [decode_familyF h4, decodeFamilyF, hkk]
  · simp [decode_familyF h4, decodeFamilyF, hkk]
  · exact ⟨State.setDt_dt s _, State.advance_pc _, unchanged_of_dt_written s (s.readV x)⟩

end Sys2Proof.Machine
end

section
/-! The round trips of the encoding and the disjoint rows of the opcode map (30_encoding.md). -/

namespace Sys2Proof

/-! ### Decoding an encoded instruction (R71, R75) -/

/-- The row count of `Dxyn` keeps its four low bits (R71). -/
theorem decode_encode_drw (x y : Nibble) (n : Nat) : decode (encode (.drw x y n)) = some (.drw x y (n % 16)) := by
  simp [encode, decode]

/-- Settles O5: the decoder reads back each layout that the encoder packs, by the field laws of Laws/Decode.lean; the
one field that can lose bits is the row count of `Dxyn`. -/
theorem decodeEncodeRoundTrip : Obligations.DecodeEncodeRoundTrip := by
  intro i hwf
  cases i
  case drw x y n => rw [decode_encode_drw, Nat.mod_eq_of_lt (of_decide_eq_true hwf)]
  case cls | ret => rfl
  case seReg x y => simp [encode, decode_family5, decodeFamily5]
  case sneReg x y => simp [encode, decode_family9, decodeFamily9]
  case ldReg x y | or x y | and x y | xor x y | addReg x y | sub x y | shr x y | subn x y | shl x y =>
    simp [encode, decode_family8, decodeFamily8]
  case skp x | sknp x => simp [encode, decode_familyE, decodeFamilyE]
  case ldVxDt x | ldVxKey x | ldDtVx x | ldStVx x | addI x | ldGlyph x | ldBcd x | storeRegs x | loadRegs x =>
    simp [encode, decode_familyF, decodeFamilyF]
  all_goals simp [encode, decode]

/-! ### Encoding a decoded word (R75, R79) -/

theorem wellFormed_of_decode {op : Word} {i : Instr} (h : decode op = some i) : i.wellFormed = true := by
  cases i
  case drw x y n =>
    rw [← encode_of_decode h, decode_encode_drw] at h
    have hn : n % 16 = n := by simpa using h
    simp only [Instr.wellFormed, decide_eq_true_eq]
    omega
  all_goals rfl

/-- Settles O6: the word is that of its instruction (`encode_of_decode`), and the row count comes from a 4-bit
field. -/
theorem encodeDecodeRoundTrip : Obligations.EncodeDecodeRoundTrip := fun _ _ h =>
  ⟨wellFormed_of_decode h, encode_of_decode h⟩

/-! ### Disjoint rows (R79) -/

open Laws in
/-- Each row of the map is the row of the instruction that its words stand for. -/
theorem rowMeanings_row (op : Word) :
    ∀ e ∈ rowMeanings, e.1 = (MatchesRow.pattern (e.2 op), MatchesRow.mask (e.2 op)) := by
  simp only [rowMeanings, List.forall_mem_cons, List.not_mem_nil, false_implies, implies_true, and_true]
  and_intros <;> rfl

open Laws in
/-- A row that a word matches is the row of the word's instruction (R75). -/
theorem row_of_decode {op : Word} {row : OpcodeRow} {i : Instr} (hrow : row ∈ opcodeMap) (h : row.matches op = true)
    (hi : decode op = some i) : row = (MatchesRow.pattern i, MatchesRow.mask i) := by
  rw [← rowMeanings_rows] at hrow
  obtain ⟨e, he, rfl⟩ := List.mem_map.mp hrow
  have hdec : decode op = some (e.2 op) := Machine.rowMeanings_encodes e he op ((OpcodeRow.matches_iff _ op).mp h)
  cases hi.symm.trans hdec
  exact rowMeanings_row op e he

/-- Settles O3: a word of a row decodes, to one instruction, and the instruction fixes the row. -/
theorem opcodeRowsAreDisjoint : Obligations.OpcodeRowsAreDisjoint := by
  intro op row hrow row' hrow' h h'
  obtain ⟨i, hi⟩ := Machine.exists_decode_of_row hrow h
  rw [row_of_decode hrow h hi, row_of_decode hrow' h' hi]

/-- Settles O7: the decoder computes each word. -/
theorem sampleWordsDecode : Obligations.SampleWordsDecode := by
  unfold Obligations.SampleWordsDecode
  decide

end Sys2Proof
end

section
/-! What the shared updates leave unchanged (R22), and the equations of the instructions with more than one case. -/

namespace Sys2Proof.Machine

/-! ### Frames -/

theorem Unchanged.refl (ws : List Part) (s : State) : Unchanged ws s s := by
  intro p _
  cases p
  all_goals simp [Part.same]

theorem Unchanged.mono {ws ws' : List Part} {s t : State} (hsub : ws ⊆ ws') (h : Unchanged ws s t) :
    Unchanged ws' s t :=
  fun p hp => h p fun hmem => hp (hsub hmem)

theorem unchanged_jump (s : State) (w : Word) : Unchanged [] s (s.jump w) := by
  intro p _
  cases p
  all_goals simp [Part.same]

/-- A raised fault writes FAULT alone, PC too is kept (R90). -/
theorem unchanged_raise (s : State) (k : FaultKind) (o : Option Word) : Unchanged [.fault] s (s.raise k o) := by
  intro p hp
  cases p
  case fault => exact absurd (List.mem_singleton_self _) hp
  all_goals simp [Part.same]

/-- Pushes and pops write the stack and PC alone (R22). -/
theorem unchanged_of_stack_written (s : State) (stack : Vector Word 16) (sp : Fin 17) (pc : Word) :
    Unchanged [.stack] s { s with stack := stack, sp := sp, pc := pc } := by
  intro p hp
  cases p
  case stack => exact absurd (List.mem_singleton_self _) hp
  all_goals simp [Part.same, State.readV]

/-- A new register file leaves every part but the registers as it was: one register, a result with its flag, or a
loaded block (R22). -/
theorem unchanged_of_regs_written (s : State) (v : Vector Byte 16) : Unchanged [.v] s { s with v := v }.advance := by
  intro p hp
  cases p
  case v => exact absurd (List.mem_singleton_self _) hp
  all_goals simp [Part.same]

/-- A draw writes the framebuffer and VF (R22). -/
theorem unchanged_of_fb_and_v_written (s : State) (fb : Framebuffer) (x : Nibble) (b : Byte) :
    Unchanged [.v, .fb] s (({ s with fb := fb } : State).writeV x b).advance := by
  intro p hp
  cases p
  case v | fb => simp at hp
  all_goals simp [Part.same]

/-- Writing memory and advancing PC leaves every part but memory as it was (R22). -/
theorem unchanged_of_mem_written (s : State) (m : Memory) : Unchanged [.mem] s { s with mem := m }.advance := by
  intro p hp
  cases p
  case mem => exact absurd (List.mem_singleton_self _) hp
  all_goals simp [Part.same, State.readV]

/-- Writing ST emits tone events and changes no other part (R22, R266). -/
theorem unchanged_of_st_written (s : State) (b : Byte) : Unchanged [.st, .tones] s (s.setSt b).advance := by
  intro p hp
  cases p
  case st | tones => simp at hp
  all_goals simp [Part.same]

/-- A tick writes the timers and the tone events (R263). -/
theorem unchanged_tick (s : State) : Unchanged [.dt, .st, .tones] s s.tick := by
  intro p hp
  cases p
  case dt | st | tones => simp at hp
  all_goals simp [Part.same]

/-! ### Return, call and key wait, one equation for each case (R120, R124, R226) -/

theorem exec_ret_of_zero {s : State} (h : s.sp.val = 0) :
    exec .ret s = .next (s.raise .stackUnderflow (some (encode .ret))) := by
  rcases execRet_cases s with ⟨-, he⟩ | ⟨hpos, -⟩
  · exact he
  · omega

theorem exec_ret_of_pos {s : State} (h : 0 < s.sp.val) :
    exec .ret s = .next { s with
      sp := ⟨s.sp.val - 1, by omega⟩, pc := s.stack.get ⟨s.sp.val - 1, by omega⟩ } := by
  rcases execRet_cases s with ⟨hzero, -⟩ | ⟨_, he⟩
  · omega
  · exact he

theorem exec_call_of_full {s : State} (nnn : Addr) (h : s.sp.val = 16) :
    exec (.call nnn) s = .next (s.raise .stackOverflow (some (encode (.call nnn)))) := by
  rcases execCall_cases nnn s with ⟨-, he⟩ | ⟨hlt, -⟩
  · exact he
  · omega

theorem exec_call_of_lt {s : State} (nnn : Addr) (h : s.sp.val < 16) :
    exec (.call nnn) s = .next { s with
      stack := s.stack.set s.sp.val (s.pc + 2#16), sp := ⟨s.sp.val + 1, by omega⟩, pc := zextAddr nnn } := by
  rcases execCall_cases nnn s with ⟨hfull, -⟩ | ⟨_, he⟩
  · omega
  · exact he

theorem exec_ldVxKey_of_zero {s : State} (x : Nibble) (h : s.keys = 0#16) : exec (.ldVxKey x) s = .next s := by
  simp [exec, execLdVxKey, (lowestKey_eq_none s.keys).mpr h]

theorem exec_ldVxKey_of_some {s : State} (x : Nibble) {k : Nibble} (h : lowestKey s.keys = some k) :
    exec (.ldVxKey x) s = .next (s.writeV x (keyByte k)).advance := by
  simp [exec, execLdVxKey, h]

end Sys2Proof.Machine
end

section
/-! Jumps, calls and returns (41_flow.md). -/

namespace Sys2Proof.Machine

/-- The `Bnnn` target does not wrap: it is at most 0x10FE (R136). -/
theorem jpV0_target_toNat (nnn : Addr) (b : Byte) : (zextAddr nnn + zextByte b).toNat = nnn.toNat + b.toNat := by
  have := nnn.isLt
  have := b.isLt
  rw [BitVec.toNat_add, zextAddr_toNat, zextByte_toNat]
  omega

/-- Settles O27: both jumps are `State.jump` to a target that fits 16 bits. -/
theorem jumpsSetPcAlone : Obligations.JumpsSetPcAlone := by
  constructor
  · intro s nnn
    exact ⟨_, rfl, zextAddr_toNat nnn, unchanged_jump s _⟩
  · intro s nnn
    exact ⟨_, rfl, jpV0_target_toNat nnn (s.readV 0), unchanged_jump s _⟩

/-- A slot after a push: the pushed word at the old SP, the old word elsewhere (R27). -/
theorem get_set_stack (stack : Vector Word 16) (n : Nat) (hn : n < 16) (w : Word) (j : Fin 16) :
    (stack.set n w).get j = if j.val = n then w else stack.get j := by
  simp only [Vector.get_eq_getElem, Vector.getElem_set, eq_comm]

/-- Settles O28: a call with a free slot is a push and a jump, and with the stack full a raised fault (R124). -/
theorem callPushesTheNextAddress : Obligations.CallPushesTheNextAddress := by
  constructor
  · intro s nnn hlt
    exact ⟨_, exec_call_of_lt nnn hlt, zextAddr_toNat nnn, rfl, get_set_stack s.stack s.sp.val hlt _,
      unchanged_of_stack_written s _ _ _⟩
  · intro s nnn hfull
    exact ⟨_, exec_call_of_full nnn hfull, rfl, rfl, unchanged_raise s _ _⟩

/-- Settles O29: a return with a saved frame moves SP and PC, and with none is a raised fault (R120). -/
theorem returnPopsTheLastAddress : Obligations.ReturnPopsTheLastAddress := by
  constructor
  · intro s j hj
    have hlast : s.sp.val - 1 = j.val := by omega
    refine ⟨_, exec_ret_of_pos (by omega), ?_, hlast, fun _ => rfl, unchanged_of_stack_written s s.stack _ _⟩
    simp only [hlast]
  · intro s hzero
    exact ⟨_, exec_ret_of_zero hzero, rfl, rfl, unchanged_raise s _ _⟩

/-- Settles O30: the call leaves SP positive, so the return pops the slot that the call wrote. -/
theorem returnUndoesCall : Obligations.ReturnUndoesCall := by
  intro s t u nnn hlt hcall hret
  cases (exec_call_of_lt nnn hlt).symm.trans hcall
  cases (exec_ret_of_pos (Nat.succ_pos s.sp.val)).symm.trans hret
  refine ⟨?_, rfl, fun j hj => ?_, unchanged_of_stack_written s _ _ _⟩
  · simp [get_set_stack s.stack s.sp.val hlt]
  · rw [get_set_stack s.stack s.sp.val hlt, if_neg hj]

end Sys2Proof.Machine
end

section
/-! Arithmetic with a flag, shifts and the random byte (42_alu.md). -/

namespace Sys2Proof.Machine

/-- The next state of `finishVFlag`: the result as a number, and the flag of a test that decides `p` (R35, R91). -/
theorem writesVxAndFlag_writeVFlag (s : State) (x : Nibble) {result : Byte} {c : Bool} {value : Nat} {p : Prop}
    (hresult : result.toNat = value) (hflag : c = true ↔ p) :
    WritesVxAndFlag s x value p (s.writeVFlag x result (flagByte c)).advance := by
  refine ⟨?_, fun hx => ?_, fun r hx hr => ?_, State.advance_pc _, unchanged_of_regs_written s _⟩
  · by_cases hp : p
    · exact .inl ⟨by simp [vf, flagByte, hflag.mpr hp], hp⟩
    · exact .inr ⟨by simp [vf, flagByte, mt hflag.mp hp], hp⟩
  · simpa [vf, hx] using hresult
  · simp [vf, hx, hr]

theorem toNat_sub_byte (a b : Byte) : (a - b).toNat = (a.toNat + 256 - b.toNat) % 256 := by
  have := b.isLt
  rw [BitVec.toNat_sub]
  congr 1
  omega

/-- Settles O24: each instruction ends in `finishVFlag`, with sums and differences of bytes modulo 256. -/
theorem arithmeticWithFlag : Obligations.ArithmeticWithFlag := by
  refine ⟨fun s x y => ⟨_, rfl, ?_⟩, fun s x y => ⟨_, rfl, ?_⟩, fun s x y => ⟨_, rfl, ?_⟩⟩
  · exact writesVxAndFlag_writeVFlag s x (BitVec.toNat_add _ _) decide_eq_true_iff
  · exact writesVxAndFlag_writeVFlag s x (toNat_sub_byte _ _) decide_eq_true_iff
  · exact writesVxAndFlag_writeVFlag s x (toNat_sub_byte _ _) decide_eq_true_iff

theorem lsb_iff_odd (b : Byte) : b.getLsbD 0 = true ↔ b.toNat % 2 = 1 := by
  simp [BitVec.getLsbD, Nat.testBit_zero]

theorem msb_iff_ge_128 (b : Byte) : b.getLsbD 7 = true ↔ b.toNat ≥ 128 := by
  have := b.isLt
  rw [BitVec.getLsbD, Nat.testBit_eq_decide_div_mod_eq, decide_eq_true_iff]
  omega

/-- Settles O25: both shifts end in `finishVFlag`; a shift by one halves or doubles, and the bit shifted out is bit 0
or bit 7. -/
theorem shiftsWithFlag : Obligations.ShiftsWithFlag := by
  refine ⟨fun s x y => ⟨_, rfl, ?_⟩, fun s x y => ⟨_, rfl, ?_⟩⟩
  · exact writesVxAndFlag_writeVFlag s x (by simp [Nat.shiftRight_eq_div_pow]) (lsb_iff_odd _)
  · exact writesVxAndFlag_writeVFlag s x (by simp [Nat.shiftLeft_eq]) (msb_iff_ge_128 _)

/-- Settles O26: `Cxkk` ends in `finishV`; the byte is what the RND latch names, supplied or free. -/
theorem randomIsMasked : Obligations.RandomIsMasked := by
  intro s x kk
  refine ⟨_, rfl, s.rnd.value &&& kk, writesVx_writeV s x _, fun k _ => BitVec.getLsbD_and, fun b hb k _ => ?_,
    fun n hn k _ => ?_⟩
  · rw [BitVec.getLsbD_and, hb, RndInput.value_supplied]
  · rw [BitVec.getLsbD_and, hn, RndInput.value_free]

end Sys2Proof.Machine
end

section
/-! Drawing (40_display.md). -/

namespace Sys2Proof.Machine

/-- The grid after `Dxyn` from `s`, with whether a pixel was turned off (R104, R108). -/
def drawn (x y : Nibble) (n : Nat) (s : State) : Framebuffer × Bool :=
  drawRows (s.readV x).toNat (s.readV y).toNat 0 (spriteBytes s.mem s.i n) (s.fb, false)

theorem exec_drw (x y : Nibble) (n : Nat) (s : State) : exec (.drw x y n) s =
    .next (({ s with fb := (drawn x y n s).1 } : State).writeV vf (collisionFlag (drawn x y n s).2)).advance := rfl

/-- The grid is XORed with the covered pixels, and the collision is a covered pixel that was on (R104, R108). -/
theorem drawn_covers (s : State) (x y : Nibble) {n : Nat} (hn : n < 16) :
    (∀ px py, (drawn x y n s).1.pixel px py = true ↔ ¬ (s.fb.pixel px py = true ↔ SpriteCovers s x y n px py)) ∧
    ((drawn x y n s).2 = true ↔ ∃ px py, s.fb.pixel px py = true ∧ SpriteCovers s x y n px py) := by
  have hlen : (spriteBytes s.mem s.i n).length ≤ 32 := by
    simp only [spriteBytes, List.length_map, List.length_range]
    omega
  simpa [drawn, spriteHits_iff_covers] using
    drawRows_closed (s.readV x).toNat (s.readV y).toNat 0 (spriteBytes s.mem s.i n) (s.fb, false) hlen

@[simp] theorem collisionFlag_eq_one (c : Bool) : collisionFlag c = 1#8 ↔ c = true := by
  cases c <;> simp [collisionFlag, flagByte]

/-- Settles O33: the closed form of the sprite loop (`drawn_covers`), read pixel by pixel and in VF. -/
theorem drawXorsTheSprite : Obligations.DrawXorsTheSprite := by
  intro s x y n hn
  obtain ⟨hpixel, hcollision⟩ := drawn_covers s x y hn
  refine ⟨_, exec_drw x y n s, fun px py => ⟨fun hcov => ?_, fun hcov => ?_⟩, fun hon => ?_, fun hoff => ?_,
    fun r hr => ?_, rfl, unchanged_of_fb_and_v_written s _ _ _⟩
  · rw [Bool.eq_iff_iff]
    simpa [hcov] using hpixel px py
  · rw [Bool.eq_iff_iff]
    simpa [hcov] using hpixel px py
  · simp [vf, hcollision.mpr hon]
  · have hnone : (drawn x y n s).2 = false := by
      rw [← Bool.not_eq_true, hcollision]
      rintro ⟨px, py, hon, hcov⟩
      simp [hoff px py hcov] at hon
    simp [vf, hnone, collisionFlag, flagByte]
  · rw [State.readV_advance, State.readV_writeV, if_neg (show r ≠ vf from hr)]
    rfl

/-- What a sprite covers is fixed by its coordinates, I and memory (R104). -/
theorem spriteCovers_congr {s t : State} {x y : Nibble} (hx : t.readV x = s.readV x) (hy : t.readV y = s.readV y)
    (hi : t.i = s.i) (hmem : t.mem = s.mem) (n : Nat) (px : Fin 64) (py : Fin 32) :
    SpriteCovers t x y n px py ↔ SpriteCovers s x y n px py := by
  simp only [SpriteCovers, hx, hy, hi, hmem]

/-- Settles O34: the second draw XORs the same pixels again, and a covered pixel is on after the first draw exactly
when it was off before. -/
theorem drawTwiceRestoresTheGrid : Obligations.DrawTwiceRestoresTheGrid := by
  rintro s t t' u x y n hn hfirst ⟨hx, hy, hi, hmem, hfb⟩ hsecond
  cases (exec_drw x y n s).symm.trans hfirst
  cases (exec_drw x y n t').symm.trans hsecond
  have hfirst := (drawn_covers s x y hn).1
  obtain ⟨hpixel, hcollision⟩ := drawn_covers t' x y hn
  simp only [hfb, State.advance_fb, State.writeV_fb, hfirst, spriteCovers_congr hx hy hi hmem] at hpixel hcollision
  constructor
  · intro px py
    rw [State.advance_fb, State.writeV_fb, Bool.eq_iff_iff, hpixel]
    tauto
  · rw [State.readV_advance, State.readV_writeV, if_pos (show 15 = vf from rfl), collisionFlag_eq_one, hcollision]
    refine exists₂_congr fun px py => ?_
    rw [← Bool.not_eq_true]
    tauto

end Sys2Proof.Machine
end

section
/-! The index register and the block moves (43_index_memory.md, 20_memory.md). -/

namespace Sys2Proof.Machine

/-- Settles O36: both instructions write I alone; the glyph address is at most 75 and does not wrap. -/
theorem indexAddAndGlyph : Obligations.IndexAddAndGlyph := by
  refine ⟨fun s x => ⟨_, rfl, ?_, rfl, unchanged_of_i_written s _⟩,
    fun s x => ⟨_, rfl, ?_, rfl, unchanged_of_i_written s _⟩⟩
  · rw [State.advance_i, State.setI_i, BitVec.toNat_add, zextByte_toNat]
  · simp only [State.advance_i, State.setI_i, glyphAddress, lowNibble_val, Config.glyphBytes, BitVec.toNat_ofNat]
    omega

/-! ### Stores from EA(0) on (R52, R56) -/

theorem read_storeEA_zero_at (i : Word) (bs : List Byte) (m : Memory) (hlen : bs.length ≤ 4096) (j : Nat)
    (hj : j < bs.length) : (Memory.storeEA i 0 bs m).read ((i.toNat + j) % 4096) = bs[j] := by
  simpa using Memory.read_storeEA_at i 0 bs m hlen j hj

theorem read_storeEA_zero_other (i : Word) (bs : List Byte) (m : Memory) (a : Nat)
    (h : ∀ j < bs.length, a ≠ (i.toNat + j) % 4096) : (Memory.storeEA i 0 bs m).read a = m.read a :=
  Memory.read_storeEA_other i 0 bs m a (by simpa using h)

/-- Settles O37: `Fx33` stores three bytes, each digit below 10. -/
theorem decimalDigitsAreStored : Obligations.DecimalDigitsAreStored := by
  intro s x
  have hv := (s.readV x).isLt
  have hdigit : ∀ j (hj : j < 3), (Memory.storeEA s.i 0 (decimalDigits (s.readV x)) s.mem).read
      ((s.i.toNat + j) % 4096) = (decimalDigits (s.readV x))[j] :=
    fun j hj => read_storeEA_zero_at s.i (decimalDigits (s.readV x)) s.mem (by simp [decimalDigits]) j hj
  refine ⟨_, rfl, (congrArg BitVec.toNat (hdigit 0 (by omega))).trans ?_,
    (congrArg BitVec.toNat (hdigit 1 (by omega))).trans ?_, (congrArg BitVec.toNat (hdigit 2 (by omega))).trans ?_,
    fun a ha => read_storeEA_zero_other s.i _ s.mem a ha, rfl, unchanged_of_mem_written s _⟩
  all_goals
    simp only [decimalDigits, List.getElem_cons_zero, List.getElem_cons_succ, BitVec.toNat_ofNat]
    omega

/-- The block `Fx55` stores, read back (R200). -/
theorem read_stored_regBlock (s : State) (x k : Nibble) (hk : k ≤ x) :
    (Memory.storeEA s.i 0 (s.regBlock x) s.mem).read ((s.i.toNat + k.val) % 4096) = s.readV k := by
  have hlen := s.regBlock_length x
  have hk : k.val ≤ x.val := hk
  rw [read_storeEA_zero_at s.i _ s.mem (by omega) k.val (by omega), State.regBlock_getElem]

/-- Settles O38: `Fx55` stores the register block, of x + 1 bytes. -/
theorem storeRegistersWritesTheBlock : Obligations.StoreRegistersWritesTheBlock := by
  intro s x
  refine ⟨_, rfl, read_stored_regBlock s x, fun a ha => ?_, rfl, unchanged_of_mem_written s _⟩
  refine read_storeEA_zero_other s.i _ s.mem a fun j hj => ?_
  rw [State.regBlock_length] at hj
  exact ha ⟨j, by omega⟩ (Nat.lt_succ_iff.mp hj)

/-- Settles O39: `Fx65` is `State.loadBlock`. -/
theorem loadRegistersReadsTheBlock : Obligations.LoadRegistersReadsTheBlock := by
  intro s x
  refine ⟨_, rfl, fun k hk => ?_, fun k hk => ?_, rfl, unchanged_of_regs_written s _⟩
  · rw [State.readV_advance, State.readV_loadBlock, if_pos hk, Memory.readEA_eq]
  · rw [State.readV_advance, State.readV_loadBlock, if_neg hk]

/-- Settles O40: the load reads the addresses the store wrote (O38, O39). -/
theorem loadAfterStoreGivesTheRegistersBack : Obligations.LoadAfterStoreGivesTheRegistersBack := by
  intro s t t' u x hstore hmem hi hload k hk
  obtain ⟨t₀, ht, hstored, -⟩ := storeRegistersWritesTheBlock s x
  obtain ⟨u₀, hu, hloaded, -⟩ := loadRegistersReadsTheBlock t' x
  cases ht.symm.trans hstore
  cases hu.symm.trans hload
  have hti : t.i = s.i := by cases hstore; rfl
  rw [hloaded k hk, hmem, hi, hti, hstored k hk]

end Sys2Proof.Machine
end

section
/-! Keys and timers (44_keys_timers.md, 60_exceptions.md). -/

namespace Sys2Proof.Machine

theorem keyPressed_lowNibble (keys : Word) (b : Byte) :
    keyPressed keys (lowNibble b) = keys.getLsbD (b.toNat % 16) := by
  rw [keyPressed, lowNibble_val]

/-- Settles O43: both instructions are skips on the key of the low nibble. -/
theorem keySkips : Obligations.KeySkips := by
  refine ⟨fun s x => ⟨_, rfl, skipsWhen_skipIf s ?_⟩, fun s x => ⟨_, rfl, skipsWhen_skipIf s ?_⟩⟩
  · rw [keyPressed_lowNibble]
  · rw [keyPressed_lowNibble, Bool.not_eq_true']

/-- A pressed key with none pressed below it is the one `Fx0A` takes (R226). -/
theorem lowestKey_of_lowest {keys : Word} {k : Nat} (hk : k < 16) (hpressed : keys.getLsbD k = true)
    (hbelow : ∀ j < k, keys.getLsbD j = false) : lowestKey keys = some ⟨k, hk⟩ := by
  cases hl : lowestKey keys with
  | none =>
    rw [(lowestKey_eq_none keys).mp hl, BitVec.getLsbD_zero] at hpressed
    cases hpressed
  | some j =>
    obtain ⟨hj, hjbelow⟩ := lowestKey_eq_some hl
    rcases Nat.lt_trichotomy j.val k with hlt | heq | hlt
    · rw [hbelow j hlt] at hj
      cases hj
    · exact congrArg some (Fin.ext heq)
    · rw [hjbelow k hlt] at hpressed
      cases hpressed

/-- Settles O44: with no key the wait answers the same state; else it ends as every write of Vx does. -/
theorem keyWaitTakesTheLowestKey : Obligations.KeyWaitTakesTheLowestKey := by
  constructor
  · intro s x hzero
    exact exec_ldVxKey_of_zero x hzero
  · intro s x k hk hpressed hbelow
    exact ⟨_, exec_ldVxKey_of_some x (lowestKey_of_lowest hk hpressed hbelow), writesVx_writeV s x _⟩

/-! ### The edges of ST (R266) -/

theorem toneEdge_start {before after : Byte} (hb : before = 0#8) (ha : after ≠ 0#8) :
    toneEdge before after = [.start] := by
  rw [toneEdge, if_pos ⟨hb, ha⟩]

theorem toneEdge_stop {before after : Byte} (hb : before ≠ 0#8) (ha : after = 0#8) :
    toneEdge before after = [.stop] := by
  rw [toneEdge, if_neg fun h => hb h.1, if_pos ⟨hb, ha⟩]

theorem toneEdge_none {before after : Byte} (h : before = 0#8 ↔ after = 0#8) : toneEdge before after = [] := by
  rw [toneEdge, if_neg fun hstart => hstart.2 (h.mp hstart.1), if_neg fun hstop => hstop.1 (h.mpr hstop.2)]

/-- Settles O46: `Fx18` is `State.setSt`, whose event is that of the edge. -/
theorem soundTimerWriteSignalsTheEdge : Obligations.SoundTimerWriteSignalsTheEdge := by
  intro s x
  refine ⟨(s.setSt (s.readV x)).advance, rfl, rfl, rfl, unchanged_of_st_written s _, fun hb ha => ?_,
    fun hb ha => ?_, fun hsame => ?_⟩
  · rw [State.advance_events, State.setSt_events, toneEdge_start hb ha, List.singleton_append]
  · rw [State.advance_events, State.setSt_events, toneEdge_stop hb ha, List.singleton_append]
  · rw [State.advance_events, State.setSt_events, toneEdge_none hsame, List.nil_append]

/-- Counting down stops the tone exactly from 1 (R264, R266). -/
theorem toneEdge_countDown (b : Byte) : toneEdge b (countDown b) = if b = 1#8 then [.stop] else [] := by
  have hzero : countDown b = 0#8 ↔ b = 0#8 ∨ b = 1#8 := by
    rw [BitVec.toNat_eq, BitVec.toNat_eq, BitVec.toNat_eq, countDown_toNat]
    simp only [BitVec.toNat_ofNat]
    omega
  by_cases hone : b = 1#8
  · rw [if_pos hone, toneEdge_stop (by simp [hone]) (hzero.mpr (.inr hone))]
  · rw [if_neg hone, toneEdge_none (by simp [hzero, hone])]

theorem step_of_tick {s : State} {rest : List HostOp} (h : s.schedule = .tick :: rest) :
    step s = .next ({ s with schedule := rest } : State).tick := by
  simp [step, nextOperation, h, performOp]

/-- A timer after `n` ticks (R264). -/
theorem iterate_tick_timers (s : State) (n : Nat) :
    (State.tick^[n] s).dt.toNat = s.dt.toNat - n ∧ (State.tick^[n] s).st.toNat = s.st.toNat - n := by
  induction n with
  | zero => exact ⟨rfl, rfl⟩
  | succ n ih =>
    obtain ⟨hdt, hst⟩ := ih
    rw [Function.iterate_succ_apply', State.tick_dt, State.tick_st, countDown_toNat, countDown_toNat, hdt, hst]
    exact ⟨Nat.sub_sub _ _ _, Nat.sub_sub _ _ _⟩

/-- Settles O47: a tick is `State.tick`, and its event is that of counting ST down. -/
theorem tickCountsTheTimersDown : Obligations.TickCountsTheTimersDown := by
  refine ⟨fun s rest h => ⟨_, step_of_tick h, countDown_toNat s.dt, countDown_toNat s.st, rfl, ?_,
    unchanged_tick _⟩, iterate_tick_timers⟩
  rw [State.tick_events, toneEdge_countDown]

end Sys2Proof.Machine
end

section
/-! Rules over all instructions: the next PC, the access table, the inputs and memory each one reads. -/

namespace Sys2Proof.Machine

theorem skipIf_not_pc (s : State) (c : Bool) : (s.skipIf !c).pc = if c then s.pc + 2#16 else s.pc + 4#16 := by
  cases c <;> rfl

/-- Settles O14: a return, a call and a key wait by their cases, a jump by its target, a skip by its test; every other
instruction ends in `State.advance`. -/
theorem nextPcOfEveryInstruction : Obligations.NextPcOfEveryInstruction := by
  intro i s
  cases i
  case ret =>
    by_cases hsp : s.sp.val = 0
    · exact ⟨_, exec_ret_of_zero hsp, by simp [hsp]⟩
    · exact ⟨_, exec_ret_of_pos (Nat.pos_of_ne_zero hsp), by simp [hsp, Vector.get_eq_getElem]⟩
  case call nnn =>
    by_cases hsp : s.sp.val = 16
    · exact ⟨_, exec_call_of_full nnn hsp, by simp [hsp]⟩
    · exact ⟨_, exec_call_of_lt nnn (by omega), by simp [hsp, zextAddr_eq]⟩
  case ldVxKey x =>
    rcases execLdVxKey_cases x s with ⟨hkeys, he⟩ | ⟨k, hk, he⟩
    · exact ⟨_, he, by simp [hkeys]⟩
    · have hkeys : s.keys ≠ 0#16 := fun h0 => by simp [(lowestKey_eq_none _).mpr h0] at hk
      exact ⟨_, he, by simp [hkeys]⟩
  case jp nnn => exact ⟨_, rfl, zextAddr_eq nnn⟩
  case jpV0 nnn =>
    refine ⟨_, rfl, BitVec.eq_of_toNat_eq ?_⟩
    have := nnn.isLt
    have := (s.readV 0).isLt
    rw [State.jump_pc, jpV0_target_toNat, BitVec.toNat_ofNat]
    omega
  case seImm x kk | seReg x y | sneImm x kk | sneReg x y => exact ⟨_, rfl, by simp⟩
  case skp x => exact ⟨_, rfl, by rw [State.skipIf_pc, keyPressed_lowNibble]⟩
  case sknp x => exact ⟨_, rfl, by rw [skipIf_not_pc, keyPressed_lowNibble]⟩
  all_goals exact ⟨_, rfl, rfl⟩

/-- Every instruction answers a next state (R257). -/
theorem exec_next (i : Instr) (s : State) : ∃ t, exec i s = .next t := by
  obtain ⟨t, ht, -⟩ := nextPcOfEveryInstruction i s
  exact ⟨t, ht⟩

/-! ### The access table (R22) -/

theorem readV_other_of_writeV (s : State) (x : Nibble) (b : Byte) (r : Nibble) (hr : r ≠ x) :
    (s.writeV x b).advance.readV r = s.readV r := by
  rw [State.readV_advance, State.readV_writeV, if_neg hr]

/-- Settles O15: each instruction ends in one of the shared updates, whose frame and register laws give the row. -/
theorem instructionsWriteOnlyTheirRow : Obligations.InstructionsWriteOnlyTheirRow := by
  intro i s t h
  cases i
  case ret =>
    by_cases hsp : s.sp.val = 0
    · cases (exec_ret_of_zero hsp).symm.trans h
      exact ⟨(unchanged_raise s _ _).mono (by simp [writtenParts]), fun r _ => rfl⟩
    · cases (exec_ret_of_pos (Nat.pos_of_ne_zero hsp)).symm.trans h
      exact ⟨(unchanged_of_stack_written s _ _ _).mono (by simp [writtenParts]), fun r _ => rfl⟩
  case call nnn =>
    by_cases hsp : s.sp.val = 16
    · cases (exec_call_of_full nnn hsp).symm.trans h
      exact ⟨(unchanged_raise s _ _).mono (by simp [writtenParts]), fun r _ => rfl⟩
    · cases (exec_call_of_lt nnn (by omega)).symm.trans h
      exact ⟨(unchanged_of_stack_written s _ _ _).mono (by simp [writtenParts]), fun r _ => rfl⟩
  case ldVxKey x =>
    rcases execLdVxKey_cases x s with ⟨-, he⟩ | ⟨k, -, he⟩ <;> cases he.symm.trans h
    · exact ⟨.refl _ s, fun r _ => rfl⟩
    · exact ⟨unchanged_of_v_written s x _, readV_other_of_writeV s x _⟩
  all_goals cases h
  case cls => exact ⟨unchanged_of_fb_written s _, fun r _ => rfl⟩
  case jp nnn | jpV0 nnn => exact ⟨unchanged_jump s _, fun r _ => rfl⟩
  case seImm x kk | sneImm x kk | seReg x y | sneReg x y | skp x | sknp x =>
    exact ⟨unchanged_skipIf s _, fun r _ => rfl⟩
  case ldImm x kk | addImm x kk | ldReg x y | or x y | and x y | xor x y | rnd x kk | ldVxDt x =>
    exact ⟨unchanged_of_v_written s x _, readV_other_of_writeV s x _⟩
  case addReg x y | sub x y | shr x y | subn x y | shl x y =>
    refine ⟨unchanged_of_regs_written s _, fun r hr => ?_⟩
    obtain ⟨hrx, hrf⟩ := not_or.mp hr
    rw [State.readV_advance, State.readV_writeVFlag, if_neg (show r ≠ vf from hrf), if_neg hrx]
  case drw x y n =>
    refine ⟨unchanged_of_fb_and_v_written s _ _ _, fun r hr => ?_⟩
    rw [State.readV_advance, State.readV_writeV, if_neg (show r ≠ vf from hr)]
    rfl
  case ldI nnn | addI x | ldGlyph x => exact ⟨unchanged_of_i_written s _, fun r _ => rfl⟩
  case ldDtVx x => exact ⟨unchanged_of_dt_written s _, fun r _ => rfl⟩
  case ldStVx x => exact ⟨unchanged_of_st_written s _, fun r _ => rfl⟩
  case ldBcd x | storeRegs x => exact ⟨unchanged_of_mem_written s _, fun r _ => rfl⟩
  case loadRegs x =>
    refine ⟨unchanged_of_regs_written s _, fun r hr => ?_⟩
    rw [State.readV_advance, State.readV_loadBlock, if_neg (show ¬ r ≤ x from hr)]

/-! ### The inputs and the memory an instruction reads (R87, R53) -/

/-- An instruction does the same under other inputs, where it does not read those that differ (R87). -/
theorem exec_with_inputs {i : Instr} {s t : State} (h : exec i s = .next t) {keys : Word} {rnd : RndInput}
    (hkeys : keys = s.keys ∨ ∀ x, i ≠ .skp x ∧ i ≠ .sknp x ∧ i ≠ .ldVxKey x)
    (hrnd : rnd = s.rnd ∨ ∀ x kk, i ≠ .rnd x kk) :
    exec i { s with keys := keys, rnd := rnd } = .next { t with keys := keys, rnd := rnd } := by
  cases i
  case ret =>
    by_cases hsp : s.sp.val = 0
    · cases (exec_ret_of_zero hsp).symm.trans h
      exact exec_ret_of_zero (s := { s with keys := keys, rnd := rnd }) hsp
    · have hpos : 0 < s.sp.val := Nat.pos_of_ne_zero hsp
      cases (exec_ret_of_pos hpos).symm.trans h
      exact exec_ret_of_pos (s := { s with keys := keys, rnd := rnd }) hpos
  case call nnn =>
    by_cases hsp : s.sp.val = 16
    · cases (exec_call_of_full nnn hsp).symm.trans h
      exact exec_call_of_full (s := { s with keys := keys, rnd := rnd }) nnn hsp
    · have hlt : s.sp.val < 16 := by omega
      cases (exec_call_of_lt nnn hlt).symm.trans h
      exact exec_call_of_lt (s := { s with keys := keys, rnd := rnd }) nnn hlt
  case ldVxKey x =>
    obtain rfl : keys = s.keys := hkeys.resolve_right fun hi => (hi x).2.2 rfl
    rcases execLdVxKey_cases x s with ⟨hzero, he⟩ | ⟨k, hk, he⟩ <;> cases he.symm.trans h
    · exact exec_ldVxKey_of_zero x hzero
    · exact exec_ldVxKey_of_some (s := { s with rnd := rnd }) x hk
  all_goals cases h
  case skp x =>
    obtain rfl : keys = s.keys := hkeys.resolve_right fun hi => (hi x).1 rfl
    rfl
  case sknp x =>
    obtain rfl : keys = s.keys := hkeys.resolve_right fun hi => (hi x).2.1 rfl
    rfl
  case rnd x kk =>
    obtain rfl : rnd = s.rnd := hrnd.resolve_right fun hi => hi x kk rfl
    rfl
  all_goals rfl

/-- Settles O16: another value of one input, with the other as it was; the latches of the next state are those of the
state (R22). -/
theorem inputsAreReadByTheirInstructions : Obligations.InputsAreReadByTheirInstructions := by
  intro i s t h
  obtain ⟨hkeys, hrnd, -, -⟩ : Part.inputs.same s t :=
    (instructionsWriteOnlyTheirRow i s t h).1 .inputs (by cases i <;> simp [writtenParts])
  refine ⟨fun keys hi => ?_, fun rnd hi => ?_⟩
  · simpa [← hrnd] using exec_with_inputs h (rnd := s.rnd) (.inr hi) (.inl rfl)
  · simpa [← hkeys] using exec_with_inputs h (keys := s.keys) (.inl rfl) (.inr hi)

/-- An instruction but `Dxyn`, `Fx65`, `Fx33` and `Fx55` neither reads nor writes memory (R53). -/
theorem exec_with_mem {i : Instr} {s t : State} (h : exec i s = .next t) (m : Memory) (hdrw : ∀ x y n, i ≠ .drw x y n)
    (hload : ∀ x, i ≠ .loadRegs x) (hstore : ∀ x, i ≠ .ldBcd x ∧ i ≠ .storeRegs x) :
    exec i { s with mem := m } = .next { t with mem := m } ∧ t.mem = s.mem := by
  cases i
  case ret =>
    by_cases hsp : s.sp.val = 0
    · cases (exec_ret_of_zero hsp).symm.trans h
      exact ⟨exec_ret_of_zero (s := { s with mem := m }) hsp, rfl⟩
    · have hpos : 0 < s.sp.val := Nat.pos_of_ne_zero hsp
      cases (exec_ret_of_pos hpos).symm.trans h
      exact ⟨exec_ret_of_pos (s := { s with mem := m }) hpos, rfl⟩
  case call nnn =>
    by_cases hsp : s.sp.val = 16
    · cases (exec_call_of_full nnn hsp).symm.trans h
      exact ⟨exec_call_of_full (s := { s with mem := m }) nnn hsp, rfl⟩
    · have hlt : s.sp.val < 16 := by omega
      cases (exec_call_of_lt nnn hlt).symm.trans h
      exact ⟨exec_call_of_lt (s := { s with mem := m }) nnn hlt, rfl⟩
  case ldVxKey x =>
    rcases execLdVxKey_cases x s with ⟨hzero, he⟩ | ⟨k, hk, he⟩ <;> cases he.symm.trans h
    · exact ⟨exec_ldVxKey_of_zero (s := { s with mem := m }) x hzero, rfl⟩
    · exact ⟨exec_ldVxKey_of_some (s := { s with mem := m }) x hk, rfl⟩
  case drw x y n => exact absurd rfl (hdrw x y n)
  case loadRegs x => exact absurd rfl (hload x)
  case ldBcd x => exact absurd rfl (hstore x).1
  case storeRegs x => exact absurd rfl (hstore x).2
  all_goals cases h; exact ⟨rfl, rfl⟩

/-- The same bytes stored from EA(0) on in two memories: alike at the stored addresses, elsewhere each as before
(R52). -/
theorem storeEA_on_two_memories (i : Word) (bs : List Byte) (hlen : bs.length ≤ 4096) (m m' : Memory) {p : Nat → Prop}
    (hp : ∀ a, p a ↔ ∃ j < bs.length, a = (i.toNat + j) % 4096) :
    (∀ a, p a → (Memory.storeEA i 0 bs m').read a = (Memory.storeEA i 0 bs m).read a) ∧
    (∀ a, ¬ p a → (Memory.storeEA i 0 bs m').read a = m'.read a ∧ (Memory.storeEA i 0 bs m).read a = m.read a) := by
  constructor
  · intro a ha
    obtain ⟨j, hj, rfl⟩ := (hp a).mp ha
    rw [read_storeEA_zero_at i bs m' hlen j hj, read_storeEA_zero_at i bs m hlen j hj]
  · intro a ha
    have hother : ∀ j < bs.length, a ≠ (i.toNat + j) % 4096 := fun j hj he => ha ((hp a).mpr ⟨j, hj, he⟩)
    exact ⟨read_storeEA_zero_other i bs m' a hother, read_storeEA_zero_other i bs m a hother⟩

theorem not_storesTo {i : Instr} (h : ∀ x, i ≠ .ldBcd x ∧ i ≠ .storeRegs x) (s : State) (a : Nat) :
    ¬ storesTo i s a := by
  cases i
  case ldBcd x => exact absurd rfl (h x).1
  case storeRegs x => exact absurd rfl (h x).2
  all_goals exact id

/-- Settles O17: the two stores write bytes that no memory decides, and every other instruction passes memory on. -/
theorem memoryIsReadByDrawAndLoad : Obligations.MemoryIsReadByDrawAndLoad := by
  intro i s t m h hdrw hload
  by_cases hstore : ∀ x, i ≠ .ldBcd x ∧ i ≠ .storeRegs x
  · obtain ⟨he, hmem⟩ := exec_with_mem h m hdrw hload hstore
    exact ⟨m, he, fun a ha => absurd ha (not_storesTo hstore s a), fun a _ => ⟨rfl, by rw [hmem]⟩,
      fun _ => ⟨rfl, hmem⟩⟩
  · cases i
    case ldBcd x =>
      cases h
      obtain ⟨hat, hother⟩ := storeEA_on_two_memories s.i (decimalDigits (s.readV x)) (by simp [decimalDigits]) s.mem m
        (p := storesTo (.ldBcd x) s) fun a => Iff.rfl
      exact ⟨_, rfl, hat, hother, fun hno => absurd hno hstore⟩
    case storeRegs x =>
      cases h
      have hlen := s.regBlock_length x
      obtain ⟨hat, hother⟩ := storeEA_on_two_memories s.i (s.regBlock x) (by omega) s.mem m
        (p := storesTo (.storeRegs x) s) fun a => by simp only [storesTo, hlen, Nat.lt_succ_iff]
      exact ⟨_, rfl, hat, hother, fun hno => absurd hno hstore⟩
    all_goals exact absurd (fun x => ⟨by simp, by simp⟩) hstore

end Sys2Proof.Machine
end

section
/-! The step cycle and its faults (30_encoding.md, 60_exceptions.md). -/

namespace Sys2Proof.Machine

/-! ### What sampling keeps (R87) -/

theorem SamplesTo.pc {s s' : State} (h : SamplesTo s s') : s'.pc = s.pc := by rw [h.eq]
theorem SamplesTo.mem {s s' : State} (h : SamplesTo s s') : s'.mem = s.mem := by rw [h.eq]
theorem SamplesTo.sp {s s' : State} (h : SamplesTo s s') : s'.sp = s.sp := by rw [h.eq]
theorem SamplesTo.stack {s s' : State} (h : SamplesTo s s') : s'.stack = s.stack := by rw [h.eq]
theorem SamplesTo.st {s s' : State} (h : SamplesTo s s') : s'.st = s.st := by rw [h.eq]
theorem SamplesTo.events {s s' : State} (h : SamplesTo s s') : s'.events = s.events := by rw [h.eq]
theorem SamplesTo.unfaulted {s s' : State} (h : SamplesTo s s') (hf : s.unfaulted) : s'.unfaulted := by
  rw [h.eq]
  exact hf

/-! ### The phases of the cycle (R86, R256) -/

theorem fetchDecodeExec_of_out_of_bounds {s : State} (hpc : 0xFFF ≤ s.pc.toNat) :
    fetchDecodeExec s = .next (s.raise .outOfBoundsFetch none) := by
  simp only [fetchDecodeExec, State.fetch_eq_none.mpr hpc]

theorem fetchDecodeExec_of_illegal {s : State} (hpc : s.pc.toNat ≤ 0xFFE)
    (hd : decode (s.mem.wordAt s.pc.toNat) = none) :
    fetchDecodeExec s = .next (s.raise .illegalInstruction (some (s.mem.wordAt s.pc.toNat))) := by
  simp only [fetchDecodeExec, State.fetch_of_le hpc, hd]

theorem fetchDecodeExec_of_decode {s : State} {i : Instr} (hpc : s.pc.toNat ≤ 0xFFE)
    (hd : decode (s.mem.wordAt s.pc.toNat) = some i) : fetchDecodeExec s = exec i s := by
  simp only [fetchDecodeExec, State.fetch_of_le hpc, hd]

/-- Settles O8: a step is the cycle on the sampled state, whose fetch and decode succeed. -/
theorem stepRunsTheDecodedInstruction : Obligations.StepRunsTheDecodedInstruction := by
  intro s s' i hf hs hpc hd
  rw [← Memory.wordAt_eq] at hd
  rw [step_of_samples hf hs]
  exact fetchDecodeExec_of_decode (by rwa [hs.pc]) (by rwa [hs.pc, hs.mem])

/-- The words of a call are those of family 2 (R75). -/
theorem isCall_iff_of_decode {op : Word} {i : Instr} (h : decode op = some i) :
    (∃ nnn, i = .call nnn) ↔ op.toNat / 4096 = 2 := by
  have hfield : fieldOp4 op = 0x2#4 ↔ op.toNat / 4096 = 2 := by
    rw [BitVec.toNat_eq, fieldOp4_toNat]
    rfl
  rw [← hfield]
  constructor
  · rintro ⟨nnn, rfl⟩
    rw [← encode_of_decode h, encode, fieldOp4_packNNN]
  · intro h4
    exact ⟨fieldNNN op, by simpa [decode, h4] using h.symm⟩

/-- The one word of a return (R75). -/
theorem eq_ret_iff_of_decode {op : Word} {i : Instr} (h : decode op = some i) : i = .ret ↔ op.toNat = 0x00EE := by
  constructor
  · rintro rfl
    rw [← encode_of_decode h]
    rfl
  · intro hop
    obtain rfl : op = encode .ret := BitVec.eq_of_toNat_eq hop
    exact (Option.some.inj h).symm

/-- FAULT after an instruction of a word `op`: a stack bound, or as before (R124, R120). -/
theorem exec_fault_eq {op : Word} {i : Instr} {s t : State} (hd : decode op = some i) (h : exec i s = .next t) :
    t.fault =
      if op.toNat / 4096 = 2 ∧ s.sp.val = 16 then some ⟨.stackOverflow, s.pc, some op⟩
      else if op.toNat = 0x00EE ∧ s.sp.val = 0 then some ⟨.stackUnderflow, s.pc, some op⟩
      else s.fault := by
  have hisCall := isCall_iff_of_decode hd
  have hisRet := eq_ret_iff_of_decode hd
  rcases exec_fault h with ⟨hi, hsp, ht⟩ | ⟨nnn, hi, hsp, ht⟩ | ⟨ht, hret, hcall⟩
  · rw [if_neg (by omega), if_pos ⟨hisRet.mp hi, hsp⟩, ht, State.raise_fault, encode_of_decode hd]
  · rw [if_pos ⟨hisCall.mp ⟨nnn, hi⟩, hsp⟩, ht, State.raise_fault, encode_of_decode hd]
  · rw [if_neg, if_neg fun ⟨hop, hsp⟩ => hret ⟨hisRet.mpr hop, hsp⟩, ht]
    rintro ⟨hop, hsp⟩
    obtain ⟨nnn, hi⟩ := hisCall.mpr hop
    exact hcall nnn ⟨hi, hsp⟩

/-- Settles O9: one equation for each failing phase, and `exec_fault_eq` for the instruction. -/
theorem faultCausesAndPriority : Obligations.FaultCausesAndPriority := by
  intro s s' hf hs
  rw [step_of_samples hf hs, ← Memory.wordAt_eq, ← hs.pc, ← hs.mem, ← hs.sp]
  by_cases hpc : 0xFFF ≤ s'.pc.toNat
  · exact ⟨_, fetchDecodeExec_of_out_of_bounds hpc, (if_pos hpc).symm⟩
  · have hle : s'.pc.toNat ≤ 0xFFE := by omega
    cases hd : decode (s'.mem.wordAt s'.pc.toNat) with
    | none => exact ⟨_, fetchDecodeExec_of_illegal hle hd, by simp [hpc, hd]⟩
    | some i =>
      obtain ⟨t, ht⟩ := exec_next i s'
      refine ⟨t, (fetchDecodeExec_of_decode hle hd).trans ht, ?_⟩
      rw [exec_fault_eq hd ht, hs.unfaulted hf]
      simp [hpc, hd]

/-- A cycle that ends with FAULT set raised it on the sampled state (R90, R252). -/
theorem fetchDecodeExec_raises {s t : State} (hf : s.unfaulted) (h : fetchDecodeExec s = .next t)
    (ht : t.fault ≠ none) : ∃ kind opcode, t = s.raise kind opcode := by
  rcases fetchDecodeExec_cases h with ⟨-, rfl⟩ | ⟨-, -, rfl⟩ | ⟨-, i, -, he⟩
  · exact ⟨_, _, rfl⟩
  · exact ⟨_, _, rfl⟩
  · rcases exec_fault he with ⟨-, -, rfl⟩ | ⟨-, -, -, rfl⟩ | ⟨hkept, -⟩
    · exact ⟨_, _, rfl⟩
    · exact ⟨_, _, rfl⟩
    · exact absurd (hkept.trans hf) ht

/-- Settles O10: the step is a raise on the sampled state, and a raise writes FAULT alone. -/
theorem faultingStepCommitsNothing : Obligations.FaultingStepCommitsNothing := by
  intro s s' t hf hs hstep ht
  rw [step_of_samples hf hs] at hstep
  obtain ⟨kind, opcode, rfl⟩ := fetchDecodeExec_raises (hs.unfaulted hf) hstep ht
  exact ⟨fun p hp => unchanged_raise s' kind opcode p (by simpa using hp), hs.pc, _, rfl, hs.pc⟩

/-- Settles O11: `heldStep` and `runStep` test FAULT first, and a tick does not look at it. -/
theorem latchedFaultStopsSteps : Obligations.LatchedFaultStopsSteps := by
  intro s r hr
  refine ⟨fun hs => ?_, fun keys rnd rest hs => ?_, fun rest hs => ?_⟩
  · simp [step, nextOperation, hs, heldStep, hr]
  · simp [step, nextOperation, hs, performOp, runStep, hr]
  · exact ⟨_, step_of_tick hs, hr, countDown_toNat s.dt, countDown_toNat s.st⟩

/-- Settles O12: of the cases of a step, those that are not a Skip or a Reset keep the record. -/
theorem onlyResetAndSkipClearAFault : Obligations.OnlyResetAndSkipClearAFault := by
  intro s t r hr h
  rcases step_cases h with ⟨-, ht⟩ | ⟨hf, -⟩ | ⟨rest, -, rfl⟩ | ⟨rest, hs, -⟩ | ⟨image, rest, hs, -⟩
  · rw [ht]
    exact .inl hr
  · cases hf.symm.trans hr
  · exact .inl hr
  · exact .inr ⟨rest, .inl hs⟩
  · exact .inr ⟨rest, .inr ⟨image, hs⟩⟩

/-- Settles O13: the step is `skipOp` on the state without the entry; the two sides of its test are the two
outcomes. -/
theorem skipPassesTheFaultingInstruction : Obligations.SkipPassesTheFaultingInstruction := by
  intro s rest hs
  have hstep : step s = skipOp Config.hostSkipOnFault { s with schedule := rest } := by
    simp [step, nextOperation, hs, performOp]
  simp only [hstep, skipOp, Bool.and_eq_true, Option.isSome_iff_ne_none]
  rfl

/-- Settles O42: the two bytes at PC are the V0 and V1 that the block store left at I (O38), with no wrap at I at most
0x0FFE, and the step runs the instruction they decode to (O8). -/
theorem storedInstructionIsExecuted : Obligations.StoredInstructionIsExecuted := by
  intro s t u u' x i hx hI hstore hmem hpc hf hs hd
  obtain ⟨t₀, ht, hstored, -⟩ := storeRegistersWritesTheBlock s x
  cases ht.symm.trans hstore
  have hread : ∀ k : Nibble, k ≤ x → k.val ≤ 1 → u.mem.read (u.pc.toNat + k.val) = s.readV k := by
    intro k hk hle
    rw [hmem, hpc, ← hstored k hk, Nat.mod_eq_of_lt (by omega)]
  refine stepRunsTheDecodedInstruction u u' i hf hs (by rwa [hpc]) ?_
  have hhi : u.mem.read u.pc.toNat = s.readV 0 := hread 0 (Nat.zero_le _) (by decide)
  have hlo : u.mem.read (u.pc.toNat + 1) = s.readV 1 := hread 1 hx (by decide)
  rw [hhi, hlo]
  exact hd

/-! ### Tone events over an operation (R266) -/

theorem fetchDecodeExec_events {s t : State} (h : fetchDecodeExec s = .next t) :
    t.events = toneEdge s.st t.st ++ s.events := by
  rcases fetchDecodeExec_cases h with ⟨-, rfl⟩ | ⟨-, -, rfl⟩ | ⟨-, i, -, he⟩
  · simp
  · simp
  · exact exec_events he

/-- Every operation but a Reset emits the event of the edge of ST over it. -/
theorem step_events {s t : State} (h : step s = .next t) (hreset : ∀ image rest, s.schedule ≠ .reset image :: rest) :
    t.events = toneEdge s.st t.st ++ s.events := by
  rcases step_cases h with ⟨-, ht⟩ | ⟨-, s', hs, he⟩ | ⟨rest, -, rfl⟩ | ⟨rest, -, -, rfl⟩ | ⟨image, rest, hs, -⟩
  · rw [ht]
    simp
  · rw [← hs.st, ← hs.events]
    exact fetchDecodeExec_events he
  · rfl
  · simp
  · exact absurd hs (hreset image rest)

/-- Settles O18: `toneEdge` is the edge of R266, at the head of the events. -/
theorem toneEventsAreTheEdgesOfSt : Obligations.ToneEventsAreTheEdgesOfSt := by
  intro s t h hreset
  rw [step_events h hreset, toneEdge]
  split_ifs <;> rfl

/-! ### The bound of PC (R25) -/

/-- The PC an instruction leaves is PC + 2 or PC + 4, PC, a saved address, or a jump's target (O14). -/
theorem exec_pc_le {i : Instr} {s t : State} (hstack : StackTargetsLegal s) (hpc : s.pc.toNat ≤ 0xFFE)
    (h : exec i s = .next t) : t.pc.toNat ≤ 0x10FE := by
  obtain ⟨t₀, ht, hnext⟩ := nextPcOfEveryInstruction i s
  cases ht.symm.trans h
  have h2 : (s.pc + 2#16).toNat = s.pc.toNat + 2 := BitVec.toNat_add_of_lt (show s.pc.toNat + 2 < 65536 by omega)
  have h4 : (s.pc + 4#16).toNat = s.pc.toNat + 4 := BitVec.toNat_add_of_lt (show s.pc.toNat + 4 < 65536 by omega)
  rw [hnext]
  cases i
  case ret =>
    dsimp only
    split
    · omega
    · rename_i hsp
      have hslot := hstack ⟨s.sp.val - 1, by omega⟩ (Nat.sub_one_lt hsp)
      simp only [Vector.get_eq_getElem] at hslot
      omega
  case jp nnn =>
    have := nnn.isLt
    simp only [BitVec.toNat_ofNat]
    omega
  case call nnn =>
    have := nnn.isLt
    dsimp only
    split
    · omega
    · simp only [BitVec.toNat_ofNat]
      omega
  case jpV0 nnn =>
    have := nnn.isLt
    have := (s.readV 0).isLt
    simp only [BitVec.toNat_ofNat]
    omega
  case seImm x kk | sneImm x kk | seReg x y | sneReg x y | skp x | sknp x | ldVxKey x =>
    dsimp only
    split <;> omega
  all_goals
    dsimp only
    omega

/-- Settles O19: a raised fault keeps PC, and an instruction keeps the bound. -/
theorem pcStaysBounded : Obligations.PcStaysBounded := by
  intro s s' t hf hstack hs hpc h
  rw [step_of_samples hf hs] at h
  rw [← hs.pc] at hpc
  rcases fetchDecodeExec_cases h with ⟨-, rfl⟩ | ⟨-, -, rfl⟩ | ⟨-, i, -, he⟩
  · rw [State.raise_pc]
    omega
  · rw [State.raise_pc]
    omega
  · refine exec_pc_le ?_ hpc he
    rw [hs.eq]
    exact hstack

end Sys2Proof.Machine
end

section
/-! The invariant of the machine, the state after reset, and the host's interface (10_state.md, 20_memory.md,
70_reset_and_hazards.md). -/

namespace Sys2Proof.Machine

/-! ### Every instruction keeps the invariant -/

theorem exec_keeps_wf {i : Instr} {s t : State} (hwf : s.mem.wf = true) (h : exec i s = .next t) :
    t.mem.wf = true := by
  rcases exec_mem h with hmem | ⟨bs, hmem⟩
  · rwa [hmem]
  · rw [hmem]
    exact Memory.wf_storeEA hwf s.i 0 bs

/-- A fetched call pushes PC + 2, at most 0x1000; a return only drops a slot (R25). -/
theorem exec_keeps_stackTargetsLegal {i : Instr} {s t : State} (hstack : StackTargetsLegal s)
    (hpc : s.pc.toNat ≤ 0xFFE) (h : exec i s = .next t) : StackTargetsLegal t := by
  intro j hj
  rcases exec_stack h with ⟨hsp, hst⟩ | ⟨hlt, hsp, hst⟩ | ⟨-, hsp, hst⟩
  · rw [hst]
    exact hstack j (by rwa [← hsp])
  · rw [hst, get_set_stack s.stack s.sp.val hlt]
    split
    · rw [BitVec.toNat_add]
      simp only [BitVec.toNat_ofNat]
      omega
    · exact hstack j (by omega)
  · rw [hst]
    exact hstack j (by omega)

theorem exec_keeps_inv {i : Instr} {s t : State} (hinv : s.Inv) (hpc : s.pc.toNat ≤ 0xFFE) (h : exec i s = .next t) :
    t.Inv := by
  obtain ⟨hwf, hstack, htone⟩ := hinv
  refine ⟨exec_keeps_wf hwf h, exec_keeps_stackTargetsLegal hstack hpc h, ?_⟩
  rw [exec_events h]
  exact toneAlternates_edge s.st t.st s.events htone

/-! ### Every operation keeps the invariant -/

/-- The invariant looks at memory, the stack, ST and the tone events alone. -/
theorem State.Inv.congr {s t : State} (hinv : s.Inv) (hmem : t.mem = s.mem) (hsp : t.sp = s.sp)
    (hstack : t.stack = s.stack) (hst : t.st = s.st) (hevents : t.events = s.events) : t.Inv := by
  simpa only [State.Inv, StackTargetsLegal, toneOn, hmem, hsp, hstack, hst, hevents] using hinv

theorem fetchDecodeExec_keeps_inv {s t : State} (hinv : s.Inv) (h : fetchDecodeExec s = .next t) : t.Inv := by
  rcases fetchDecodeExec_cases h with ⟨-, rfl⟩ | ⟨-, -, rfl⟩ | ⟨hpc, i, -, he⟩
  · exact hinv.congr rfl rfl rfl rfl rfl
  · exact hinv.congr rfl rfl rfl rfl rfl
  · exact exec_keeps_inv hinv hpc he

theorem tick_keeps_inv {s : State} (hinv : s.Inv) : s.tick.Inv := by
  obtain ⟨hwf, hstack, htone⟩ := hinv
  exact ⟨hwf, hstack, toneAlternates_edge s.st (countDown s.st) s.events htone⟩

/-- No return address is saved in a state with the stack of reset. -/
theorem stackTargetsLegal_of_empty {s : State} (hsp : s.sp = 0) : StackTargetsLegal s := by
  intro j hj
  simp [hsp] at hj

/-- Settles O21: memory lists no byte, SP is 0, and ST is 0 with no event. -/
theorem resetMeetsTheInvariant : Obligations.ResetMeetsTheInvariant :=
  ⟨rfl, stackTargetsLegal_of_empty rfl, rfl⟩

theorem loaded_inv {image : List Byte} (hlen : image.length ≤ Config.maxImage) : (loaded image).Inv := by
  simp only [Config.maxImage] at hlen
  refine ⟨Memory.wf_copyImage rfl _ image ?_, stackTargetsLegal_of_empty rfl, rfl⟩
  simp only [Config.progBase]
  omega

/-- Settles O20: the cases of a step, each by the lemma that says the operation keeps the invariant. -/
theorem everyStepKeepsTheInvariant : Obligations.EveryStepKeepsTheInvariant := by
  intro s t hinv h
  rcases step_cases h with ⟨-, ht⟩ | ⟨-, s', hs, he⟩ | ⟨rest, -, rfl⟩ | ⟨rest, -, -, rfl⟩ |
    ⟨image, rest, -, hlen, rfl⟩
  · rw [ht]
    exact hinv.congr rfl rfl rfl rfl rfl
  · exact fetchDecodeExec_keeps_inv (hinv.congr hs.mem hs.sp hs.stack hs.st hs.events) he
  · exact tick_keeps_inv (hinv.congr rfl rfl rfl rfl rfl)
  · exact hinv.congr rfl rfl rfl rfl rfl
  · exact (loaded_inv hlen).congr rfl rfl rfl rfl rfl

/-! ### Reset (R39, R290, R294) -/

/-- Settles O48: the fields of `State.reset`; memory reads its reset contents, the glyphs and zero after them. -/
theorem resetState : Obligations.ResetState := by
  refine ⟨fun r => ?_, rfl, rfl, rfl, fun j => ?_, rfl, rfl, Framebuffer.pixel_blank, rfl, rfl, rfl, rfl,
    fun a ha => List.getD_eq_getElem _ _ ha, fun a ha => Memory.background_of_ge ha⟩
  · simp [State.readV, State.reset, Vector.get_eq_getElem]
  · simp [State.reset, Vector.get_eq_getElem]

theorem resetWith_fits {image : List Byte} (h : image.length ≤ 3584) : resetWith image = .next (loaded image) :=
  if_pos h

theorem resetWith_too_large {image : List Byte} (h : 3584 < image.length) :
    resetWith image = .fault (.imageTooLarge image.length) :=
  if_neg (Nat.not_le.mpr h)

/-- Settles O49: the step is `resetOp`, and the copied image is read back byte by byte. -/
theorem resetLoadsTheImage : Obligations.ResetLoadsTheImage := by
  intro s image rest hs
  have hstep : step s = resetOp image { s with schedule := rest } := by
    simp only [step, nextOperation, hs, performOp]
  constructor
  · intro hlen
    refine ⟨{ loaded image with schedule := rest, freeCount := s.freeCount }, ?_,
      fun k hk => Memory.read_copyImage_at 0x200 image [] k hk,
      fun a ha => Memory.read_copyImage_other 0x200 image [] a ha, rfl⟩
    rw [hstep, resetOp, resetWith_fits hlen]
  · intro hlen
    rw [hstep, resetOp, resetWith_too_large hlen]

/-! ### A placed word (log 11) -/

theorem fetchTarget_le (pc : Word) : (fetchTarget pc).toNat ≤ 0xFFE := by
  unfold fetchTarget
  split
  · simpa [fetchable] using ‹fetchable pc = true›
  · decide

/-- The word placed where the next step fetches is the word it fetches, high byte first (R54). -/
theorem placeWord_wordAt (op : Word) (s : State) :
    (s.placeWord op).mem.wordAt (s.placeWord op).pc.toNat = op := by
  simp [State.placeWord, Memory.wordAt]

theorem placeWord_unfaulted (op : Word) (s : State) : (s.placeWord op).unfaulted := rfl

/-- With every operation before the first `Step` dropped, the next operation is a `Step`. -/
theorem placeWord_samples (op : Word) (s : State) : ∃ s', SamplesTo (s.placeWord op) s' := by
  cases hs : (s.placeWord op).schedule with
  | nil => exact ⟨_, .inl ⟨hs, rfl⟩⟩
  | cons o rest =>
    have ho : o.isStep = true := by
      have hhead := List.head?_dropWhile_not (fun o => !o.isStep) s.schedule
      rw [show s.schedule.dropWhile (fun o => !o.isStep) = o :: rest from hs] at hhead
      simpa using hhead
    cases o with
    | step keys rnd => exact ⟨_, .inr ⟨keys, rnd, rest, hs, rfl⟩⟩
    | tick | skip | reset image => cases ho

/-- Settles O50: the placed state is unfaulted, its PC is fetchable, and the word at it is the row's. -/
theorem placedWordRunsNext : Obligations.PlacedWordRunsNext := by
  intro s w i hi
  rw [decodeTableWord_eq] at hi
  obtain ⟨s', hs⟩ := placeWord_samples (tableWord 16 w) s
  refine ⟨s', hs, (step_of_samples (placeWord_unfaulted _ s) hs).trans (fetchDecodeExec_of_decode ?_ ?_)⟩
  · rw [hs.pc]
    exact fetchTarget_le s.pc
  · rwa [hs.pc, hs.mem, placeWord_wordAt]

end Sys2Proof.Machine
end
